-- ==== Sys2Proof/Word.lean ====
section
/-!
DEFINITION. The word types of the engine (00_scope.md R7: every value is an unsigned integer of a stated width).
-/

namespace Sys2Proof

/-- One byte of `Buf`, and the width of a ROM index (20_memory.md R30). -/
abbrev Byte := BitVec 8

/-- The accumulator width of the three 16-bit CCITT families (10_state.md R13). -/
abbrev Half := BitVec 16

/-- The width of `ACC`, `LEN`, `EXPECTED` and `VALUE` (10_state.md R13, R17, R20). -/
abbrev Word := BitVec 32

end Sys2Proof
end

