-- ==== Sys2Proof/Syntax.lean ====
section
/-!
DEFINITION. The commands of the engine as syntax (30_encoding.md R52, R55), one constructor per row of
spec/opcode_table.json, and the command port that carries one (10_state.md R17, R18).
-/

namespace Sys2Proof

/-- A reference to a byte buffer or a bit array: is it there, and how many bytes or elements has it
(10_state.md R17, R18). A size is a count, taken at face value (R53). -/
structure Descriptor where
  present : Bool
  size : Nat
  deriving DecidableEq, Repr

/-- What stands in the command port: every operand field, whether or not the operation reads it
(10_state.md R17; field widths 30_encoding.md R51). -/
structure Command where
  op : BitVec 4
  len : Word
  expected : Word
  bufPresent : Bool
  bufSize : Word
  bitsPresent : Bool
  bitsSize : Word
  deriving DecidableEq, Repr

/-- The eleven operations with the operands their format reads (30_encoding.md R51, R52, R55).
`len` is a byte count, `bitLen` a bit count, both natural numbers (R53); `expected` is compared as a whole
32-bit word. -/
inductive Instr where
  | ck5Compute (bits : Descriptor)
  | ck5Verify (bits : Descriptor) (expected : Word)
  | crc8Compute (buf : Descriptor) (len : Nat)
  | crc9Compute (buf : Descriptor) (bitLen : Nat)
  | ccitt1Verify (buf : Descriptor) (len : Nat)
  | ccitt1Embed (buf : Descriptor) (len : Nat)
  | ccitt2Verify (buf : Descriptor) (len : Nat)
  | ccitt2Embed (buf : Descriptor) (len : Nat)
  | crc32Verify (buf : Descriptor) (len : Nat)
  | crc32Embed (buf : Descriptor) (len : Nat)
  | ccittsCompute (buf : Descriptor) (bitLen : Nat)
  deriving DecidableEq, Repr

end Sys2Proof
end

