-- ==== Sys2Proof/WellFormed.lean ====
section
/-!
DEFINITION. Which syntactic commands can be presented at the port: a count or size that does not fit its 32-bit field
cannot (00_scope.md R6 `LEN_W`, `SIZE_W`; 93_implementation_defined.md U19). Nothing else is ill-formed:
every value of `LEN`, `EXPECTED`, `present` and `size` is a legal encoding (30_encoding.md R54).
-/

namespace Sys2Proof

/-- A count fits the 32-bit field that carries it (R6, U19). -/
def countFits (n : Nat) : Bool := decide (n < 2 ^ 32)

/-- A descriptor's size fits `size[31:0]` (10_state.md R17, R18). -/
def Descriptor.wellFormed (d : Descriptor) : Bool := countFits d.size

/-- The command can be presented at the command port. -/
def Instr.wellFormed : Instr → Bool
  | .ck5Compute bits => bits.wellFormed
  | .ck5Verify bits _ => bits.wellFormed
  | .crc8Compute buf len => buf.wellFormed && countFits len
  | .crc9Compute buf bitLen => buf.wellFormed && countFits bitLen
  | .ccitt1Verify buf len => buf.wellFormed && countFits len
  | .ccitt1Embed buf len => buf.wellFormed && countFits len
  | .ccitt2Verify buf len => buf.wellFormed && countFits len
  | .ccitt2Embed buf len => buf.wellFormed && countFits len
  | .crc32Verify buf len => buf.wellFormed && countFits len
  | .crc32Embed buf len => buf.wellFormed && countFits len
  | .ccittsCompute buf bitLen => buf.wellFormed && countFits bitLen

end Sys2Proof
end

