-- ==== Sys2Proof/Decode.lean ====
section
/-!
DEFINITION. The decoder, total on every content of the command port (30_encoding.md R50, R54), the encoder from the same
operation map (R52), and the host's view of a table row's word.
-/

namespace Sys2Proof

/-- Why a command names no operation. -/
inductive DecodeError where
  /-- `OP` is one of the reserved codes 11 to 15 (R54). -/
  | reservedOp (op : BitVec 4)
  deriving DecidableEq, Repr

/-- The descriptor `Buf` as presented (10_state.md R17). -/
def Command.bufDescriptor (c : Command) : Descriptor := ⟨c.bufPresent, c.bufSize.toNat⟩

/-- The descriptor `Bits` as presented (R18). -/
def Command.bitsDescriptor (c : Command) : Descriptor := ⟨c.bitsPresent, c.bitsSize.toNat⟩

/-- The operation map (30_encoding.md R52). `OP` alone selects the operation; the operand fields outside the
operation's format are dropped (R51, R17). -/
def decode (c : Command) : Except DecodeError Instr :=
  match c.op.toNat with
  | 0 => .ok (.ck5Compute c.bitsDescriptor)
  | 1 => .ok (.ck5Verify c.bitsDescriptor c.expected)
  | 2 => .ok (.crc8Compute c.bufDescriptor c.len.toNat)
  | 3 => .ok (.crc9Compute c.bufDescriptor c.len.toNat)
  | 4 => .ok (.ccitt1Verify c.bufDescriptor c.len.toNat)
  | 5 => .ok (.ccitt1Embed c.bufDescriptor c.len.toNat)
  | 6 => .ok (.ccitt2Verify c.bufDescriptor c.len.toNat)
  | 7 => .ok (.ccitt2Embed c.bufDescriptor c.len.toNat)
  | 8 => .ok (.crc32Verify c.bufDescriptor c.len.toNat)
  | 9 => .ok (.crc32Embed c.bufDescriptor c.len.toNat)
  | 10 => .ok (.ccittsCompute c.bufDescriptor c.len.toNat)
  | _ => .error (.reservedOp c.op)

/-- A format `A` or `AX` command; the fields it does not read are 0. -/
def Command.ofBits (op : BitVec 4) (bits : Descriptor) (expected : Word) : Command :=
  { op := op, len := 0, expected := expected, bufPresent := false, bufSize := 0,
    bitsPresent := bits.present, bitsSize := BitVec.ofNat 32 bits.size }

/-- A format `B` or `T` command; the fields it does not read are 0. -/
def Command.ofBuf (op : BitVec 4) (buf : Descriptor) (len : Nat) : Command :=
  { op := op, len := BitVec.ofNat 32 len, expected := 0, bufPresent := buf.present,
    bufSize := BitVec.ofNat 32 buf.size, bitsPresent := false, bitsSize := 0 }

/-- The command that presents an operation (R51, R52). -/
def encode : Instr → Command
  | .ck5Compute bits => .ofBits 0b0000 bits 0
  | .ck5Verify bits expected => .ofBits 0b0001 bits expected
  | .crc8Compute buf len => .ofBuf 0b0010 buf len
  | .crc9Compute buf bitLen => .ofBuf 0b0011 buf bitLen
  | .ccitt1Verify buf len => .ofBuf 0b0100 buf len
  | .ccitt1Embed buf len => .ofBuf 0b0101 buf len
  | .ccitt2Verify buf len => .ofBuf 0b0110 buf len
  | .ccitt2Embed buf len => .ofBuf 0b0111 buf len
  | .crc32Verify buf len => .ofBuf 0b1000 buf len
  | .crc32Embed buf len => .ofBuf 0b1001 buf len
  | .ccittsCompute buf bitLen => .ofBuf 0b1010 buf bitLen

/-- The command whose `OP` field is the low `nbits` bits of `w` and whose operand fields are 0; none when they do not
fit the 4-bit field (R50: a command has no bit beside its fields). -/
def commandOfTableWord (nbits w : Nat) : Option Command :=
  if w % 2 ^ nbits < 16 then some (Command.ofBuf (BitVec.ofNat 4 (w % 2 ^ nbits)) ⟨false, 0⟩ 0) else none

/-- The instruction the decoder reads from a table row's word. -/
def decodeTableWord (nbits w : Nat) : Option Instr :=
  match commandOfTableWord nbits w with
  | none => none
  | some c =>
    match decode c with
    | .ok i => some i
    | .error _ => none

end Sys2Proof
end

