-- ==== Sys2Proof/Config.lean ====
section
/-!
DEFINITION. What an implementation fixes and the spec leaves open (00_scope.md R6, 92_eei_decisions.md section 2),
and the free values. Every constant here is opaque: nothing can be proved of its value.
-/

namespace Sys2Proof

/-- `TABLE8`, the contents of ROM8: OPEN (R6, R64). -/
opaque Config.table8 : Byte → BitVec 8

/-- `TABLE9`, the contents of ROM9; only the entries below `Config.n9` exist: OPEN (R6, R64). -/
opaque Config.table9 : Nat → BitVec 9

/-- `TABLE1`, the contents of ROMC1: OPEN (R6, R64). -/
opaque Config.table1 : Byte → BitVec 16

/-- `TABLE2`, the contents of ROMC2: OPEN (R6, R64). -/
opaque Config.table2 : Byte → BitVec 16

/-- `TABLE32`, the contents of ROM32: OPEN (R6, R64). -/
opaque Config.table32 : Byte → BitVec 32

/-- By how much the depth of ROM9 exceeds 7, the least depth R81 allows. -/
opaque Config.n9Excess : Nat

/-- `N9`, the depth of ROM9: OPEN, with `N9 >= 7` (R6, R81); the constraint holds by the form of the definition. -/
def Config.n9 : Nat := 7 + Config.n9Excess

/-- Free value of `ACC` after an operation that used it has ended (10_state.md R13,
93_implementation_defined.md U12): the argument numbers the occasion. -/
opaque Config.freeAcc : Nat → BitVec 32

/-- Free value of `SUM` after an operation that used it has ended (R14, U12). -/
opaque Config.freeSum : Nat → BitVec 12

/-- Free value of `IDX` after an operation has ended (R15, U12). -/
opaque Config.freeIdx : Nat → BitVec 32

end Sys2Proof
end

