-- ==== Sys2Proof/Machine/State.lean ====
section
/-!
DEFINITION. The state of the engine as plain data, and the state after reset (10_state.md, R26).
-/

namespace Sys2Proof.Machine

/-- The error kinds a command can end with (60_exceptions.md R110). -/
inductive ErrorKind where
  | missingInput
  | rangeViolation
  | boundsFault
  | illegalOp
  deriving DecidableEq, Repr

/-- The response port: `STATUS[2:0]`, `VALID`, `VALUE[31:0]` (10_state.md R20). -/
structure Response where
  status : BitVec 3
  valid : Bool
  value : Word
  deriving DecidableEq, Repr

/-- Why the machine stops. Every kind is a guard on an access the spec never makes (20_memory.md R31,
40_bit_packer_and_roms.md R62, R63). All are SAFE: the model stops where the spec has no value to give. -/
inductive Fault where
  /-- A byte of `Buf` at or above `Buf.size`; raised by `readByte` and `writeByte`. Safe. -/
  | bufOutside (index : Nat)
  /-- Eight elements of `Bits` from `index` on, not all below `Bits.size`; raised by `pack8`. Safe. -/
  | bitsOutside (index : Nat)
  /-- A word of ROM9 at or above `N9`; raised by `readRom9`. Safe; reachable only when ROM9 has fewer than
  the seven words R81 requires. -/
  | romOutside (index : Nat)
  deriving DecidableEq, Repr

/-- Why an instruction is given no meaning. -/
inductive Refusal where
  /-- The instruction has no meaning in the model yet; raised by `exec` alone. Safe. -/
  | notModelled (mnemonic : String)
  deriving DecidableEq, Repr

/-- Everything the spec gives the machine. -/
structure State where
  /-- ROM8, ROM9, ROMC1, ROMC2, ROM32 (10_state.md R11); `N9` is the length of `rom9` (R81). -/
  rom8 : Vector (BitVec 8) 256
  rom9 : List (BitVec 9)
  romC1 : Vector (BitVec 16) 256
  romC2 : Vector (BitVec 16) 256
  rom32 : Vector (BitVec 32) 256
  /-- The working registers (R13, R14, R15). -/
  acc : BitVec 32
  sum : BitVec 12
  idx : BitVec 32
  /-- The command port: the pending command, if any (R17, R26). -/
  command : Option Command
  /-- The response port: the last response, if any (R20, R26). -/
  response : Option Response
  /-- The caller's byte buffer, in canonical form (20_memory.md R30). -/
  buf : List Host.Cell
  /-- The caller's bit array, in canonical form (10_state.md R18). -/
  bits : List (Nat × Bool)
  /-- The model's own: the number of the next free value (93_implementation_defined.md U12). -/
  freeCount : Nat
  deriving DecidableEq, Repr

/-- The machine right after reset (10_state.md R26, 70_reset_and_hazards.md R130, R131): idle, the ROMs complete.
The working registers are DESIGN CHOICE 0 (log 3), `freeCount` DESIGN CHOICE 0 (log 4). The caller's memory has nothing
listed because nothing is written yet (log 5); a later reset, which does not touch it, is `State.afterReset`. -/
def State.reset : State where
  rom8 := Vector.ofFn fun i => Config.table8 (BitVec.ofNat 8 i.val)
  rom9 := (List.range Config.n9).map Config.table9
  romC1 := Vector.ofFn fun i => Config.table1 (BitVec.ofNat 8 i.val)
  romC2 := Vector.ofFn fun i => Config.table2 (BitVec.ofNat 8 i.val)
  rom32 := Vector.ofFn fun i => Config.table32 (BitVec.ofNat 8 i.val)
  acc := 0
  sum := 0
  idx := 0
  command := none
  response := none
  buf := []
  bits := []
  freeCount := 0

end Sys2Proof.Machine
end

