-- ==== Sys2Proof/Machine/Flags.lean ====
section
/-!
DEFINITION. The engine has no persistent flags (10_state.md R21). What stands in their place: the fields of one response
(`STATUS`, `VALID`, `VALUE`, R20) and the verdicts of the Verify operations.
-/

namespace Sys2Proof.Machine

/-- `STATUS` of a normal ending (60_exceptions.md R110). -/
def statusOk : BitVec 3 := 0

/-- `STATUS` of an error kind (R110). -/
def ErrorKind.status : ErrorKind → BitVec 3
  | .missingInput => 1
  | .rangeViolation => 2
  | .boundsFault => 3
  | .illegalOp => 4

/-- `respond value(v)` (10_state.md R20). -/
def respValue (v : Word) : Response := ⟨statusOk, false, v⟩

/-- `respond verdict(b)` (R20). -/
def respVerdict (b : Bool) : Response := ⟨statusOk, b, 0⟩

/-- `respond done` (R20). -/
def respDone : Response := ⟨statusOk, false, 0⟩

/-- The response of `raise k` (R20, 60_exceptions.md R116). -/
def respError (k : ErrorKind) : Response := ⟨k.status, false, 0⟩

/-- The byte `v[15:8]` of a 16-bit value (92_eei_decisions.md D22). -/
def high (v : Half) : Byte := (v >>> 8).setWidth 8

/-- The byte `v[7:0]` of a 16-bit value (D22). -/
def low (v : Half) : Byte := v.setWidth 8

/-- Byte `k` of a 32-bit value, byte 0 the least significant (20_memory.md R37, R38). -/
def byteOf (v : Word) (k : Nat) : Byte := (v >>> (8 * k)).setWidth 8

/-- The two footer bytes of CCITT1, `Buf[LEN-2]` first (R37). -/
def ccitt1Footer (c : Half) : List Byte := [high c, low c]

/-- The two footer bytes of CCITT2, `Buf[LEN-2]` first: swapped relative to variant 1 (R37). -/
def ccitt2Footer (c : Half) : List Byte := [low c, high c]

/-- The four footer bytes of CRC32, `Buf[LEN-4]` first (R37). -/
def crc32Footer (c : Word) : List Byte := [byteOf c 3, byteOf c 2, byteOf c 1, byteOf c 0]

/-- The verdict of a Verify operation: every footer byte found is the one Embed would store
(44_crc_16bit_ccitt_variants.md R86, R90; 45_crc_32bit.md R96). -/
def footerVerdict (found expected : List Byte) : Bool := decide (found = expected)

/-- The verdict of `CK5.VERIFY`: both sides whole 32-bit values (41_modular_checksum_5bit.md R71, D12). -/
def checksumVerdict (computed : BitVec 12) (expected : Word) : Bool := decide (computed.setWidth 32 = expected)

end Sys2Proof.Machine
end

