-- ==== Sys2Proof/Machine/Ops.lean ====
section
/-!
DEFINITION. The named operations over memory, registers and ports: the canonical store, the working registers, ending an
operation normally or by `raise`, the loop of an operation, and what the caller does from outside.
-/

namespace Sys2Proof.Machine

/-- What an unlisted byte of `Buf` reads as: DESIGN CHOICE (log 5). -/
def unlistedByte : Byte := 0x00

/-- What an unlisted element of `Bits` reads as: DESIGN CHOICE (log 5). -/
def unlistedBit : Bool := false

/-- The value a store holds at an address; `d` is what an unlisted address reads as. -/
def readCell {α : Type} (d : α) : List (Nat × α) → Nat → α
  | [], _ => d
  | (b, w) :: m, a => if a = b then w else readCell d m a

/-- Replaces the value at one address and keeps the canonical form: sorted, and the value an unlisted address
reads as is not listed. -/
def writeCell {α : Type} [DecidableEq α] (d : α) : List (Nat × α) → Nat → α → List (Nat × α)
  | [], a, v => if v = d then [] else [(a, v)]
  | (b, w) :: m, a, v =>
    if a < b then (if v = d then (b, w) :: m else (a, v) :: (b, w) :: m)
    else if a = b then (if v = d then m else (a, v) :: m)
    else (b, w) :: writeCell d m a v

/-- The canonical form: addresses strictly rising, and no entry equal to what an unlisted address reads as. -/
abbrev Memory.wf {α : Type} [DecidableEq α] (d : α) (m : List (Nat × α)) : Prop :=
  m.Pairwise (fun x y => x.1 < y.1) ∧ ∀ c ∈ m, c.2 ≠ d

/-- The byte at index `a` of the caller's buffer (20_memory.md R31). -/
def State.bufByte (s : State) (a : Nat) : Byte := readCell unlistedByte s.buf a

/-- `ReadBit(Buf, i)` of 40_bit_packer_and_roms.md R60: bit address `i` is bit `7 - (i mod 8)` of byte `i div 8`. -/
def State.bufBit (s : State) (i : Nat) : Bool := (s.bufByte (i / 8)).getLsbD (7 - i % 8)

/-- Element `k` of the caller's bit array (10_state.md R18). -/
def State.bitAt (s : State) (k : Nat) : Bool := readCell unlistedBit s.bits k

/-- `Buf[a] <- v` (20_memory.md R32). -/
def State.setByte (s : State) (a : Nat) (v : Byte) : State := { s with buf := writeCell unlistedByte s.buf a v }

/-- `ACC <- v` (10_state.md R13). -/
def State.setAcc (s : State) (v : BitVec 32) : State := { s with acc := v }

/-- `SUM <- v` (R14). -/
def State.setSum (s : State) (v : BitVec 12) : State := { s with sum := v }

/-- `IDX <- v` (R15). -/
def State.setIdx (s : State) (v : BitVec 32) : State := { s with idx := v }

/-- A response is put in the response port (R20). -/
def State.respond (s : State) (r : Response) : State := { s with response := some r }

/-- `raise k`, the engine's exception entry (60_exceptions.md R116): the error response, and nothing else. There is
no return beside it: the error response is the end of the failing command (R118). -/
def State.raise (s : State) (k : ErrorKind) : State := s.respond (respError k)

/-- The engine takes the pending command: the command port is free again (10_state.md R17, 20_memory.md R43). -/
def State.accept (s : State) : State := { s with command := none }

/-- The end of an operation that used ACC and IDX: what they hold from now on is a free value
(10_state.md R13, R15; 93_implementation_defined.md U12; log 4). -/
def State.releaseAcc (s : State) : State :=
  { s with acc := Config.freeAcc s.freeCount, idx := Config.freeIdx s.freeCount, freeCount := s.freeCount + 1 }

/-- The end of an operation that used SUM and IDX (R14, R15; U12; log 4). -/
def State.releaseSum (s : State) : State :=
  { s with sum := Config.freeSum s.freeCount, idx := Config.freeIdx s.freeCount, freeCount := s.freeCount + 1 }

/-- `for i in 0 .. n-1` (00_scope.md R8): IDX holds the index the body works on and goes up by one after it
(10_state.md R15). -/
def loop (body : Nat → State → Except Fault State) : Nat → State → Except Fault State
  | 0, s => .ok s
  | n + 1, s =>
    match loop body n s with
    | .error f => .error f
    | .ok s₁ =>
      match body s₁.idx.toNat s₁ with
      | .error f => .error f
      | .ok s₂ => .ok (s₂.setIdx (s₁.idx + 1))

/-- The loop of an operation from its beginning: IDX starts at 0 (R15). -/
def loopFromZero (body : Nat → State → Except Fault State) (n : Nat) (s : State) : Except Fault State :=
  loop body n (s.setIdx 0)

/-- One operation as one atomic step (20_memory.md R43): the checks come first and the first that fails ends the
operation (60_exceptions.md R116, R117); only then does it read anything. -/
def guarded (failed : Option ErrorKind) (op : State → Except Fault State) (s : State) :
    Host.Outcome State Fault Refusal :=
  match failed with
  | some k => .next (s.raise k)
  | none =>
    match op s with
    | .ok t => .next t
    | .error f => .fault f

/-- The caller issues a command (10_state.md R17). An input from outside, no step of the engine (log 15).
DESIGN CHOICE (log 16), unsafe: the spec only says the caller must wait for the response (70_reset_and_hazards.md R139) and
gives a command issued while another is pending no outcome; here it replaces the pending one, which is never answered. -/
def State.issue (s : State) (c : Command) : State := { s with command := some c }

/-- The caller writes a byte of its own buffer (R25 (b)). An input from outside (log 15).
DESIGN CHOICE (log 18), unsafe: the spec gives a write between a command and its response no meaning
(70_reset_and_hazards.md R133); here it may occur while a command is pending, and the operation then reads the new byte. -/
def State.callerWriteByte (s : State) (a : Nat) (v : Byte) : State :=
  { s with buf := writeCell unlistedByte s.buf a v }

/-- The caller writes an element of its own bit array (R25 (b)). An input from outside (log 15).
DESIGN CHOICE (log 18), unsafe: as for `State.callerWriteByte`, while a command is pending the operation reads the new
element. -/
def State.callerSetBit (s : State) (k : Nat) (v : Bool) : State :=
  { s with bits := writeCell unlistedBit s.bits k v }

/-- A reset of the engine as it stands (10_state.md R26, R27): idle, nothing pending, the ROM contents as they are; the
caller's buffer and bit array are not touched. The working registers are DESIGN CHOICE 0, as in `State.reset` (log 3).
An input from outside, no step of the engine (log 17). -/
def State.afterReset (s : State) : State :=
  { s with acc := 0, sum := 0, idx := 0, command := none, response := none }

end Sys2Proof.Machine
end

