-- ==== Sys2Proof/Machine/Operands.lean ====
section
/-!
DEFINITION. Every operand form: the checks of a descriptor and a length (60_exceptions.md R111 to R114, R117), the
reads and writes inside a descriptor (20_memory.md R31, R32), the bit_packer (40_bit_packer_and_roms.md R60, R61)
and the ROM reads (R63).
-/

namespace Sys2Proof.Machine

/-- Elements of the bit array the 5-bit checksum reads: `CK5_BITS` (00_scope.md R5). -/
def ck5Bits : Nat := 72

/-- The required reference is absent or empty (60_exceptions.md R112). -/
def inputMissing (d : Descriptor) : Bool := !d.present || d.size == 0

/-- The checks of formats `A` and `AX` (R112, R114, R117). -/
def checkBits (bits : Descriptor) : Option ErrorKind :=
  if inputMissing bits then some .missingInput
  else if bits.size < ck5Bits then some .boundsFault
  else none

/-- The checks of format `B` with footer width `w`; 0 where there is no footer (R112, R113, R114, R117). -/
def checkBytes (w : Nat) (buf : Descriptor) (len : Nat) : Option ErrorKind :=
  if inputMissing buf then some .missingInput
  else if len < w then some .rangeViolation
  else if buf.size < len then some .boundsFault
  else none

/-- The checks of format `T` (R112, R114, R117). -/
def checkBitCount (buf : Descriptor) (bitLen : Nat) : Option ErrorKind :=
  if inputMissing buf then some .missingInput
  else if 8 * buf.size < bitLen then some .boundsFault
  else none

/-- The checks of `CRC9.COMPUTE`: format `T`, and ROM9 must have an entry for every bit position
(43_crc_9bit.md R81, D11). -/
def checkCrc9 (n9 : Nat) (buf : Descriptor) (bitLen : Nat) : Option ErrorKind :=
  match checkBitCount buf bitLen with
  | some k => some k
  | none => if n9 + 9 < bitLen then some .boundsFault else none

/-- `MemRead(a, 1)` (20_memory.md R31). -/
def readByte (buf : Descriptor) (a : Nat) (s : State) : Except Fault Byte :=
  if a < buf.size then .ok (s.bufByte a) else .error (.bufOutside a)

/-- `MemWrite(a, 1, v)` (R32). -/
def writeByte (buf : Descriptor) (a : Nat) (v : Byte) (s : State) : Except Fault State :=
  if a < buf.size then .ok (s.setByte a v) else .error (.bufOutside a)

/-- `ReadBit(Buf, i)` (40_bit_packer_and_roms.md R60). -/
def readBit (buf : Descriptor) (i : Nat) (s : State) : Except Fault Bool :=
  match readByte buf (i / 8) s with
  | .ok b => .ok (b.getLsbD (7 - i % 8))
  | .error f => .error f

/-- Eight bits as a byte, the first the most significant: the concatenation of R61 (R34). -/
def packByte (f : Nat → Bool) : Byte :=
  BitVec.ofBool (f 0) ++ BitVec.ofBool (f 1) ++ BitVec.ofBool (f 2) ++ BitVec.ofBool (f 3) ++
    BitVec.ofBool (f 4) ++ BitVec.ofBool (f 5) ++ BitVec.ofBool (f 6) ++ BitVec.ofBool (f 7)

/-- Byte `Pack8(Bits, k)` of the bit array, wherever it lies (R61). -/
def State.packedAt (s : State) (k : Nat) : Byte := packByte fun j => s.bitAt (k + j)

/-- `Pack8(Bits, k)` (R61). -/
def pack8 (bits : Descriptor) (k : Nat) (s : State) : Except Fault Byte :=
  if k + 7 < bits.size then .ok (s.packedAt k) else .error (.bitsOutside k)

/-- A read of one of the four 256-word ROMs (R63): every 8-bit index is in range. -/
def romRead {α : Type} (rom : Vector α 256) (i : Byte) : α := rom[i.toNat]'i.isLt

/-- `ROM9[i]` (R63). -/
def readRom9 (i : Nat) (s : State) : Except Fault (BitVec 9) :=
  match s.rom9[i]? with
  | some w => .ok w
  | none => .error (.romOutside i)

/-- Reads the bytes of `Buf` from `a` on, `n` of them, in ascending order (20_memory.md R40). -/
def readBytes (buf : Descriptor) (s : State) : Nat → Nat → Except Fault (List Byte)
  | _, 0 => .ok []
  | a, n + 1 =>
    match readByte buf a s with
    | .error f => .error f
    | .ok b =>
      match readBytes buf s (a + 1) n with
      | .error f => .error f
      | .ok l => .ok (b :: l)

/-- Writes bytes of `Buf` from `a` on, in ascending order (R40, D18). -/
def writeBytes (buf : Descriptor) : Nat → List Byte → State → Except Fault State
  | _, [], s => .ok s
  | a, b :: l, s =>
    match writeByte buf a b s with
    | .error f => .error f
    | .ok s₁ => writeBytes buf (a + 1) l s₁

/-- The normal end of an operation that used ACC: the response, then the working registers are free values again. -/
def State.finishAcc (s : State) (r : Response) : State := (s.respond r).releaseAcc

/-- The normal end of an operation that used SUM. -/
def State.finishSum (s : State) (r : Response) : State := (s.respond r).releaseSum

/-- The last step of a Verify operation: read the footer at `LEN - W`, after the loop (20_memory.md R40), and answer
whether it is the expected one (R86, R90, R96). -/
def verifyFooter (buf : Descriptor) (a : Nat) (expected : List Byte) (s : State) : Except Fault State :=
  match readBytes buf s a expected.length with
  | .error f => .error f
  | .ok found => .ok (s.finishAcc (respVerdict (footerVerdict found expected)))

/-- The last step of an Embed operation: write the footer from `LEN - W` on and answer `done` (R87, R91, R97). -/
def embedFooter (buf : Descriptor) (a : Nat) (footer : List Byte) (s : State) : Except Fault State :=
  match writeBytes buf a footer s with
  | .error f => .error f
  | .ok t => .ok (t.finishAcc respDone)

end Sys2Proof.Machine
end

