-- ==== Sys2Proof/Machine/BitSerial.lean ====
section
/-!
DEFINITION. `CCITTS.COMPUTE`, the bit-serial generator (46_crc_16bit_bit_serial.md R100, R101, R102). It reads no ROM.
-/

namespace Sys2Proof.Machine

/-- `CCITTS_INIT` (00_scope.md R5). -/
def bitSerialInit : Half := 0xFFFF

/-- `CCITTS_POLY` (R5). -/
def bitSerialPoly : Half := 0x1021

/-- One step on the accumulator: `msb` is taken before the shift (R100, R102). -/
def bitSerialShift (acc : Half) (bit : Bool) : Half :=
  if bit != acc.getLsbD 15 then (acc <<< 1) ^^^ bitSerialPoly else acc <<< 1

/-- One bit of the loop of R100. -/
def bitSerialStep (buf : Descriptor) (i : Nat) (s : State) : Except Fault State :=
  match readBit buf i s with
  | .error f => .error f
  | .ok b => .ok (s.setAcc ((bitSerialShift (s.acc.setWidth 16) b).setWidth 32))

/-- ACC after the first `bitLen` bits; not complemented (R100, R101). -/
def bitSerialCore (buf : Descriptor) (bitLen : Nat) (s : State) : Except Fault State :=
  loopFromZero (bitSerialStep buf) bitLen (s.setAcc (bitSerialInit.setWidth 32))

/-- `CCITTS.COMPUTE` after its checks. -/
def ccittsComputeOp (buf : Descriptor) (bitLen : Nat) (s : State) : Except Fault State :=
  match bitSerialCore buf bitLen s with
  | .error f => .error f
  | .ok t => .ok (t.finishAcc (respValue ((t.acc.setWidth 16).setWidth 32)))

/-- `CCITTS.COMPUTE buf, bitlen -> value v` (R100). -/
def execCcittsCompute (buf : Descriptor) (bitLen : Nat) (s : State) : Host.Outcome State Fault Refusal :=
  guarded (checkBitCount buf bitLen) (ccittsComputeOp buf bitLen) s

end Sys2Proof.Machine
end

