-- ==== Sys2Proof/Machine/Ccitt.lean ====
section
/-!
DEFINITION. The two table-driven 16-bit variants: `CCITT1.VERIFY`, `CCITT1.EMBED`, `CCITT2.VERIFY`, `CCITT2.EMBED`
(44_crc_16bit_ccitt_variants.md R85 to R92). The differences of R92 are kept exactly.
-/

namespace Sys2Proof.Machine

/-- `W_CCITT1` and `W_CCITT2` (00_scope.md R5). -/
def ccittWidth : Nat := 2

/-- `CCITT1_INIT` (R5). -/
def ccitt1Init : Half := 0xFFFF

/-- `CCITT2_INIT` (R5). -/
def ccitt2Init : Half := 0x0000

/-- The sixteen low bits of ACC (10_state.md R13). -/
def State.acc16 (s : State) : Half := s.acc.setWidth 16

/-- `ACC <- zext_16(low(ACC)) ^ ROMC1[ high(ACC) ^ Buf[i] ]` (R85). -/
def ccitt1Step (buf : Descriptor) (i : Nat) (s : State) : Except Fault State :=
  match readByte buf i s with
  | .error f => .error f
  | .ok b =>
    .ok (s.setAcc (((low s.acc16).setWidth 16 ^^^ romRead s.romC1 (high s.acc16 ^^^ b)).setWidth 32))

/-- `ACC <- (zext_16(high(ACC)) << 8) ^ ROMC2[ low(ACC) ^ Buf[i] ]` (R89). -/
def ccitt2Step (buf : Descriptor) (i : Nat) (s : State) : Except Fault State :=
  match readByte buf i s with
  | .error f => .error f
  | .ok b =>
    .ok (s.setAcc ((((high s.acc16).setWidth 16 <<< 8) ^^^ romRead s.romC2 (low s.acc16 ^^^ b)).setWidth 32))

/-- `ACC <- ACC ^ 0xFFFF`, the 16-bit complement (R85, R89). -/
def State.complement16 (s : State) : State := s.setAcc ((s.acc16 ^^^ 0xFFFF).setWidth 32)

/-- `CCITT1_core` (R85). -/
def ccitt1Core (buf : Descriptor) (len : Nat) (s : State) : Except Fault State :=
  match loopFromZero (ccitt1Step buf) (len - ccittWidth) (s.setAcc (ccitt1Init.setWidth 32)) with
  | .error f => .error f
  | .ok t => .ok t.complement16

/-- `CCITT2_core` (R89). -/
def ccitt2Core (buf : Descriptor) (len : Nat) (s : State) : Except Fault State :=
  match loopFromZero (ccitt2Step buf) (len - ccittWidth) (s.setAcc (ccitt2Init.setWidth 32)) with
  | .error f => .error f
  | .ok t => .ok t.complement16

/-- `CCITT1.VERIFY` after its checks (R86). -/
def ccitt1VerifyOp (buf : Descriptor) (len : Nat) (s : State) : Except Fault State :=
  match ccitt1Core buf len s with
  | .error f => .error f
  | .ok t => verifyFooter buf (len - ccittWidth) (ccitt1Footer t.acc16) t

/-- `CCITT1.EMBED` after its checks (R87). -/
def ccitt1EmbedOp (buf : Descriptor) (len : Nat) (s : State) : Except Fault State :=
  match ccitt1Core buf len s with
  | .error f => .error f
  | .ok t => embedFooter buf (len - ccittWidth) (ccitt1Footer t.acc16) t

/-- `CCITT2.VERIFY` after its checks (R90). -/
def ccitt2VerifyOp (buf : Descriptor) (len : Nat) (s : State) : Except Fault State :=
  match ccitt2Core buf len s with
  | .error f => .error f
  | .ok t => verifyFooter buf (len - ccittWidth) (ccitt2Footer t.acc16) t

/-- `CCITT2.EMBED` after its checks (R91). -/
def ccitt2EmbedOp (buf : Descriptor) (len : Nat) (s : State) : Except Fault State :=
  match ccitt2Core buf len s with
  | .error f => .error f
  | .ok t => embedFooter buf (len - ccittWidth) (ccitt2Footer t.acc16) t

/-- `CCITT1.VERIFY buf, len -> verdict b` (R86). -/
def execCcitt1Verify (buf : Descriptor) (len : Nat) (s : State) : Host.Outcome State Fault Refusal :=
  guarded (checkBytes ccittWidth buf len) (ccitt1VerifyOp buf len) s

/-- `CCITT1.EMBED buf, len -> done` (R87). -/
def execCcitt1Embed (buf : Descriptor) (len : Nat) (s : State) : Host.Outcome State Fault Refusal :=
  guarded (checkBytes ccittWidth buf len) (ccitt1EmbedOp buf len) s

/-- `CCITT2.VERIFY buf, len -> verdict b` (R90). -/
def execCcitt2Verify (buf : Descriptor) (len : Nat) (s : State) : Host.Outcome State Fault Refusal :=
  guarded (checkBytes ccittWidth buf len) (ccitt2VerifyOp buf len) s

/-- `CCITT2.EMBED buf, len -> done` (R91). -/
def execCcitt2Embed (buf : Descriptor) (len : Nat) (s : State) : Host.Outcome State Fault Refusal :=
  guarded (checkBytes ccittWidth buf len) (ccitt2EmbedOp buf len) s

end Sys2Proof.Machine
end

