-- ==== Sys2Proof/Machine/Crc32.lean ====
section
/-!
DEFINITION. `CRC32.VERIFY` and `CRC32.EMBED` (45_crc_32bit.md R95, R96, R97).
-/

namespace Sys2Proof.Machine

/-- `W_CRC32` (00_scope.md R5). -/
def crc32Width : Nat := 4

/-- `CRC32_INIT` (R5). -/
def crc32Init : Word := 0x00000000

/-- `index <- ((ACC >> 24) ^ zext_32(Buf[i])) & 0xFF` (R95). -/
def crc32Index (acc : Word) (b : Byte) : Byte := ((acc >>> 24) ^^^ b.setWidth 32).setWidth 8

/-- `ACC <- (ROM32[index] ^ (ACC << 8)) & 0xFFFFFFFF` (R95). -/
def crc32Step (buf : Descriptor) (i : Nat) (s : State) : Except Fault State :=
  match readByte buf i s with
  | .error f => .error f
  | .ok b => .ok (s.setAcc (romRead s.rom32 (crc32Index s.acc b) ^^^ (s.acc <<< 8)))

/-- `CRC32_core` (R95). -/
def crc32Core (buf : Descriptor) (len : Nat) (s : State) : Except Fault State :=
  match loopFromZero (crc32Step buf) (len - crc32Width) (s.setAcc crc32Init) with
  | .error f => .error f
  | .ok t => .ok (t.setAcc (t.acc ^^^ 0xFFFFFFFF))

/-- `CRC32.VERIFY` after its checks (R96). -/
def crc32VerifyOp (buf : Descriptor) (len : Nat) (s : State) : Except Fault State :=
  match crc32Core buf len s with
  | .error f => .error f
  | .ok t => verifyFooter buf (len - crc32Width) (crc32Footer t.acc) t

/-- `CRC32.EMBED` after its checks (R97). -/
def crc32EmbedOp (buf : Descriptor) (len : Nat) (s : State) : Except Fault State :=
  match crc32Core buf len s with
  | .error f => .error f
  | .ok t => embedFooter buf (len - crc32Width) (crc32Footer t.acc) t

/-- `CRC32.VERIFY buf, len -> verdict b` (R96). -/
def execCrc32Verify (buf : Descriptor) (len : Nat) (s : State) : Host.Outcome State Fault Refusal :=
  guarded (checkBytes crc32Width buf len) (crc32VerifyOp buf len) s

/-- `CRC32.EMBED buf, len -> done` (R97). -/
def execCrc32Embed (buf : Descriptor) (len : Nat) (s : State) : Host.Outcome State Fault Refusal :=
  guarded (checkBytes crc32Width buf len) (crc32EmbedOp buf len) s

end Sys2Proof.Machine
end

