-- ==== Sys2Proof/Machine/Crc8.lean ====
section
/-!
DEFINITION. `CRC8.COMPUTE` (42_crc_8bit.md R75). The family has no Verify and no Embed (R76).
-/

namespace Sys2Proof.Machine

/-- `CRC8_INIT` (00_scope.md R5). -/
def crc8Init : BitVec 8 := 0x00

/-- The eight low bits of ACC (10_state.md R13). -/
def State.acc8 (s : State) : BitVec 8 := s.acc.setWidth 8

/-- `ACC <- ROM8[ ACC ^ Buf[i] ]` (R75). -/
def crc8Step (buf : Descriptor) (i : Nat) (s : State) : Except Fault State :=
  match readByte buf i s with
  | .error f => .error f
  | .ok b => .ok (s.setAcc ((romRead s.rom8 (s.acc8 ^^^ b)).setWidth 32))

/-- ACC after the first `len` bytes (R75). -/
def crc8Core (buf : Descriptor) (len : Nat) (s : State) : Except Fault State :=
  loopFromZero (crc8Step buf) len (s.setAcc (crc8Init.setWidth 32))

/-- `CRC8.COMPUTE` after its checks. -/
def crc8ComputeOp (buf : Descriptor) (len : Nat) (s : State) : Except Fault State :=
  match crc8Core buf len s with
  | .error f => .error f
  | .ok t => .ok (t.finishAcc (respValue (t.acc8.setWidth 32)))

/-- `CRC8.COMPUTE buf, len -> value v` (R75); there is no footer, so the range check cannot fail. -/
def execCrc8Compute (buf : Descriptor) (len : Nat) (s : State) : Host.Outcome State Fault Refusal :=
  guarded (checkBytes 0 buf len) (crc8ComputeOp buf len) s

end Sys2Proof.Machine
end

