-- ==== Sys2Proof/Machine/Crc9.lean ====
section
/-!
DEFINITION. `CRC9.COMPUTE` (43_crc_9bit.md R80, R81, R82).
-/

namespace Sys2Proof.Machine

/-- `CRC9_WIN_LO`, the first skipped bit position (00_scope.md R5). -/
def crc9WindowLow : Nat := 7

/-- `CRC9_WIN_HI`, the last skipped bit position (R5). -/
def crc9WindowHigh : Nat := 15

/-- `CRC9_OFFSET` (R5). -/
def crc9Offset : Nat := 9

/-- `CRC9_XOROUT` (R5). -/
def crc9XorOut : BitVec 9 := 0x1FF

/-- The nine low bits of ACC (10_state.md R13). -/
def State.acc9 (s : State) : BitVec 9 := s.acc.setWidth 9

/-- The ROM9 entry of bit position `i`; none inside the skip window (R81, R82). -/
def crc9Entry (i : Nat) : Option Nat :=
  if i < crc9WindowLow then some i
  else if crc9WindowHigh < i then some (i - crc9Offset)
  else none

/-- `ACC <- ACC ^ ROM9[j]` (R80). -/
def crc9Xor (j : Nat) (s : State) : Except Fault State :=
  match readRom9 j s with
  | .error f => .error f
  | .ok w => .ok (s.setAcc ((s.acc9 ^^^ w).setWidth 32))

/-- One bit position of the loop of R80. -/
def crc9Step (buf : Descriptor) (i : Nat) (s : State) : Except Fault State :=
  match readBit buf i s with
  | .error f => .error f
  | .ok false => .ok s
  | .ok true =>
    match crc9Entry i with
    | none => .ok s
    | some j => crc9Xor j s

/-- ACC after the first `bitLen` bits, masked and complemented (R80); `acc9` is nine bits wide, so the mask `& 0x1FF`
changes nothing. -/
def crc9Core (buf : Descriptor) (bitLen : Nat) (s : State) : Except Fault State :=
  match loopFromZero (crc9Step buf) bitLen (s.setAcc 0) with
  | .error f => .error f
  | .ok t => .ok (t.setAcc ((t.acc9 ^^^ crc9XorOut).setWidth 32))

/-- `CRC9.COMPUTE` after its checks. -/
def crc9ComputeOp (buf : Descriptor) (bitLen : Nat) (s : State) : Except Fault State :=
  match crc9Core buf bitLen s with
  | .error f => .error f
  | .ok t => .ok (t.finishAcc (respValue (t.acc9.setWidth 32)))

/-- `CRC9.COMPUTE buf, bitlen -> value v` (R80); `N9` is the depth of ROM9 (R81). -/
def execCrc9Compute (buf : Descriptor) (bitLen : Nat) (s : State) : Host.Outcome State Fault Refusal :=
  guarded (checkCrc9 s.rom9.length buf bitLen) (crc9ComputeOp buf bitLen) s

end Sys2Proof.Machine
end

