-- ==== Sys2Proof/Machine/ModularChecksum.lean ====
section
/-!
DEFINITION. `CK5.COMPUTE` and `CK5.VERIFY` (41_modular_checksum_5bit.md R70, R71).
-/

namespace Sys2Proof.Machine

/-- `CK5_MOD` (00_scope.md R5). -/
def ck5Modulus : BitVec 12 := 31

/-- `CK5_BYTES` (R5). -/
def ck5Bytes : Nat := 9

/-- `SUM <- SUM + zext_12(Pack8(Bits, 8*k))` (R70). -/
def ck5Step (bits : Descriptor) (k : Nat) (s : State) : Except Fault State :=
  match pack8 bits (8 * k) s with
  | .error f => .error f
  | .ok b => .ok (s.setSum (s.sum + b.setWidth 12))

/-- SUM after the nine groups (R70). -/
def ck5Sum (bits : Descriptor) (s : State) : Except Fault State :=
  loopFromZero (ck5Step bits) ck5Bytes (s.setSum 0)

/-- The checksum, from SUM (R70). -/
def ck5Reduce (s : State) : BitVec 12 := s.sum % ck5Modulus

/-- `CK5.COMPUTE` after its checks. -/
def ck5ComputeOp (bits : Descriptor) (s : State) : Except Fault State :=
  match ck5Sum bits s with
  | .error f => .error f
  | .ok t => .ok (t.finishSum (respValue ((ck5Reduce t).setWidth 32)))

/-- `CK5.VERIFY` after its checks. -/
def ck5VerifyOp (bits : Descriptor) (expected : Word) (s : State) : Except Fault State :=
  match ck5Sum bits s with
  | .error f => .error f
  | .ok t => .ok (t.finishSum (respVerdict (checksumVerdict (ck5Reduce t) expected)))

/-- `CK5.COMPUTE bits -> value v` (R70). -/
def execCk5Compute (bits : Descriptor) (s : State) : Host.Outcome State Fault Refusal :=
  guarded (checkBits bits) (ck5ComputeOp bits) s

/-- `CK5.VERIFY bits, expected -> verdict b` (R71). -/
def execCk5Verify (bits : Descriptor) (expected : Word) (s : State) : Host.Outcome State Fault Refusal :=
  guarded (checkBits bits) (ck5VerifyOp bits expected) s

end Sys2Proof.Machine
end

