-- ==== Sys2Proof/Machine/Dispatch.lean ====
section
/-!
DEFINITION. One arm per operation of 30_encoding.md R52.
-/

namespace Sys2Proof.Machine

def exec (i : Instr) (s : State) : Host.Outcome State Fault Refusal :=
  match i with
  | .ck5Compute bits => Sys2Proof.Machine.execCk5Compute bits s
  | .ck5Verify bits expected => Sys2Proof.Machine.execCk5Verify bits expected s
  | .crc8Compute buf len => Sys2Proof.Machine.execCrc8Compute buf len s
  | .crc9Compute buf bitLen => Sys2Proof.Machine.execCrc9Compute buf bitLen s
  | .ccitt1Verify buf len => Sys2Proof.Machine.execCcitt1Verify buf len s
  | .ccitt1Embed buf len => Sys2Proof.Machine.execCcitt1Embed buf len s
  | .ccitt2Verify buf len => Sys2Proof.Machine.execCcitt2Verify buf len s
  | .ccitt2Embed buf len => Sys2Proof.Machine.execCcitt2Embed buf len s
  | .crc32Verify buf len => Sys2Proof.Machine.execCrc32Verify buf len s
  | .crc32Embed buf len => Sys2Proof.Machine.execCrc32Embed buf len s
  | .ccittsCompute buf bitLen => Sys2Proof.Machine.execCcittsCompute buf bitLen s

end Sys2Proof.Machine
end

