-- ==== Sys2Proof/Machine/Step.lean ====
section
/-!
DEFINITION. One step of the engine: it takes the pending command, decodes it and executes it (20_memory.md R43,
30_encoding.md R54, R57).
-/

namespace Sys2Proof.Machine

/-- One step. With no command pending the engine is idle and nothing changes (60_exceptions.md R127, log 8). A reserved
`OP` raises `IllegalOp` (R115). -/
def step (s : State) : Host.Outcome State Fault Refusal :=
  match s.command with
  | none => .next s
  | some c =>
    match decode c with
    | .ok i => exec i s.accept
    | .error _ => .next (s.accept.raise .illegalOp)

/-- The state with a table row's command pending, its operand fields 0: the next step runs it (log 7, log 8). -/
def State.withFetchWord (s : State) (nbits w : Nat) : State :=
  { s with command := commandOfTableWord nbits w }

end Sys2Proof.Machine
end

