-- ==== Sys2Proof/Safety.lean ====
section
/-!
DEFINITION. The terms claims use: the invariant of a good state, what the checks of an operation ask of a command, what an
operation leaves unchanged, and the checksums written over lists of bytes and bits in the words of the spec.
-/

namespace Sys2Proof.Safety

open Sys2Proof.Machine

/-- A response the spec allows at the port: `STATUS` 0 to 4, and the fields the ending does not use are 0
(10_state.md R20, 60_exceptions.md R110). -/
def LegalResponse (r : Response) : Prop :=
  (∃ v, r = respValue v) ∨ (∃ b, r = respVerdict b) ∨ r = respDone ∨ ∃ k, r = respError k

/-- The invariant: the caller's memory is in canonical form, ROM9 has the entries of bit positions 0 to 6 (R81), and
the response port holds only a response the spec allows. -/
structure Inv (s : State) : Prop where
  buf_wf : Memory.wf unlistedByte s.buf
  bits_wf : Memory.wf unlistedBit s.bits
  rom9_deep : 7 ≤ s.rom9.length
  response_legal : ∀ r, s.response = some r → LegalResponse r

/-- The required reference is absent or empty (60_exceptions.md R112). -/
def Absent (d : Descriptor) : Prop := d.present = false ∨ d.size = 0

/-- The required reference is there and not empty (R112). -/
def Usable (d : Descriptor) : Prop := d.present = true ∧ 0 < d.size

/-- The descriptor an operation's format requires (30_encoding.md R51). -/
def requiredInput : Instr → Descriptor
  | .ck5Compute bits => bits
  | .ck5Verify bits _ => bits
  | .crc8Compute buf _ => buf
  | .crc9Compute buf _ => buf
  | .ccitt1Verify buf _ => buf
  | .ccitt1Embed buf _ => buf
  | .ccitt2Verify buf _ => buf
  | .ccitt2Embed buf _ => buf
  | .crc32Verify buf _ => buf
  | .crc32Embed buf _ => buf
  | .ccittsCompute buf _ => buf

/-- The operation works in SUM (10_state.md R14); every other one works in ACC (R13). -/
def usesSum : Instr → Bool
  | .ck5Compute _ => true
  | .ck5Verify _ _ => true
  | .crc8Compute _ _ => false
  | .crc9Compute _ _ => false
  | .ccitt1Verify _ _ => false
  | .ccitt1Embed _ _ => false
  | .ccitt2Verify _ _ => false
  | .ccitt2Embed _ _ => false
  | .crc32Verify _ _ => false
  | .crc32Embed _ _ => false
  | .ccittsCompute _ _ => false

/-- The footer the operation must place or read does not fit in `LEN` (R113). -/
def FooterTooWide : Instr → Prop
  | .ck5Compute _ => False
  | .ck5Verify _ _ => False
  | .crc8Compute _ _ => False
  | .crc9Compute _ _ => False
  | .ccitt1Verify _ len => len < 2
  | .ccitt1Embed _ len => len < 2
  | .ccitt2Verify _ len => len < 2
  | .ccitt2Embed _ len => len < 2
  | .crc32Verify _ len => len < 4
  | .crc32Embed _ len => len < 4
  | .ccittsCompute _ _ => False

/-- The extent of the operation does not lie inside what exists; `n9` is the depth of ROM9 (20_memory.md R41,
60_exceptions.md R114). -/
def ExtentTooLong (n9 : Nat) : Instr → Prop
  | .ck5Compute bits => bits.size < 72
  | .ck5Verify bits _ => bits.size < 72
  | .crc8Compute buf len => buf.size < len
  | .crc9Compute buf bitLen => 8 * buf.size < bitLen ∨ n9 + 9 < bitLen
  | .ccitt1Verify buf len => buf.size < len
  | .ccitt1Embed buf len => buf.size < len
  | .ccitt2Verify buf len => buf.size < len
  | .ccitt2Embed buf len => buf.size < len
  | .crc32Verify buf len => buf.size < len
  | .crc32Embed buf len => buf.size < len
  | .ccittsCompute buf bitLen => 8 * buf.size < bitLen

/-- None of the four conditions of R117 holds: the operation runs. -/
def Admitted (n9 : Nat) (i : Instr) : Prop :=
  Usable (requiredInput i) ∧ ¬ FooterTooWide i ∧ ¬ ExtentTooLong n9 i

/-- The five ROMs hold the same words (10_state.md R11). -/
structure SameRoms (s t : State) : Prop where
  rom8 : t.rom8 = s.rom8
  rom9 : t.rom9 = s.rom9
  romC1 : t.romC1 = s.romC1
  romC2 : t.romC2 = s.romC2
  rom32 : t.rom32 = s.rom32

/-- The bit array reads the same at every index. -/
def SameBits (s t : State) : Prop := ∀ k, t.bitAt k = s.bitAt k

/-- The byte buffer reads the same at every index. -/
def SameBytes (s t : State) : Prop := ∀ a, t.bufByte a = s.bufByte a

/-- What an operation that works in ACC and IDX leaves unchanged, the byte buffer and the response apart: the ROMs, the
command port and the bit array. The working registers are any value afterwards (R13 to R15, U12); that the model keeps
SUM is its own choice (log 4), no part of this frame. -/
structure KeepsAllButAcc (s t : State) : Prop where
  roms : SameRoms s t
  command : t.command = s.command
  bits : SameBits s t

/-- What an operation that works in SUM and IDX leaves unchanged, the response apart: the ROMs, the command port, the
byte buffer and the bit array. The working registers are any value afterwards (R13 to R15, U12); that the model keeps
ACC is its own choice (log 4), no part of this frame. -/
structure KeepsAllButSum (s t : State) : Prop where
  roms : SameRoms s t
  command : t.command = s.command
  bytes : SameBytes s t
  bits : SameBits s t

/-- Two outcomes answer a next state with the same response. -/
def SameAnswer (o p : Host.Outcome State Fault Refusal) : Prop :=
  ∃ t u, o = .next t ∧ p = .next u ∧ u.response = t.response

/-- The first `n` bytes of the buffer. -/
def bytesOf (s : State) (n : Nat) : List Byte := (List.range n).map s.bufByte

/-- The first `n` bits of the buffer, most significant bit of each byte first (20_memory.md R33). -/
def bitsOf (s : State) (n : Nat) : List Bool := (List.range n).map s.bufBit

/-- The nine bytes the bit array packs to (41_modular_checksum_5bit.md R70). -/
def groupsOf (s : State) : List Byte := (List.range 9).map fun k => s.packedAt (8 * k)

/-- "sums the resulting 9 bytes, and reduces the sum modulo 31" (R70), on natural numbers. -/
def modularSum (l : List Byte) : Nat := (l.map BitVec.toNat).sum % 31

/-- "for each of the first `length` bytes, accumulator := table8[accumulator XOR byte]" (R75). -/
def crc8Of (rom : Vector (BitVec 8) 256) (l : List Byte) : BitVec 8 :=
  l.foldl (fun a b => romRead rom (a ^^^ b)) 0

/-- The bit positions that take part in the 9-bit CRC: set, and outside the window 7..15 (R80, R82). -/
def crc9Positions (s : State) (bitLen : Nat) : List Nat :=
  (List.range bitLen).filter fun i => s.bufBit i && (decide (i < 7) || decide (15 < i))

/-- The exclusive or of the entries the positions select, complemented (R80, R81). -/
def crc9Of (rom : List (BitVec 9)) (positions : List Nat) : BitVec 9 :=
  ~~~ positions.foldl (fun a i => a ^^^ rom.getD (if i < 7 then i else i - 9) 0) 0

/-- The complemented accumulator of CCITT1 over a payload (R85), with low and high bytes taken by masks. -/
def ccitt1Of (rom : Vector (BitVec 16) 256) (l : List Byte) : Half :=
  ~~~ l.foldl (fun a b => (a &&& 0x00FF) ^^^ romRead rom (BitVec.extractLsb' 8 8 a ^^^ b)) 0xFFFF

/-- The complemented accumulator of CCITT2 over a payload (R89). -/
def ccitt2Of (rom : Vector (BitVec 16) 256) (l : List Byte) : Half :=
  ~~~ l.foldl (fun a b => (a &&& 0xFF00) ^^^ romRead rom (BitVec.extractLsb' 0 8 a ^^^ b)) 0x0000

/-- The complemented accumulator of CRC32 over a payload (R95): the index is the top byte exclusive-ored with the data. -/
def crc32Of (rom : Vector (BitVec 32) 256) (l : List Byte) : Word :=
  ~~~ l.foldl (fun a b => romRead rom (BitVec.extractLsb' 24 8 a ^^^ b) ^^^ (a <<< 8)) 0

/-- The bit-serial accumulator over a message, not complemented (R100, R102). -/
def bitSerialOf (l : List Bool) : Half :=
  l.foldl (fun a b => (a <<< 1) ^^^ (if b = a.msb then 0 else 0x1021)) 0xFFFF

end Sys2Proof.Safety
end

