-- ==== Sys2Proof/Certificates/Slice0/Obligations.lean ====
section
/-!
DEFINITION. The statements for the provers. Each formalises a numbered rule of spec/ or rests on the sections its docstring
names; OBLIGATIONS.json lists them in this order.
-/

open Sys2Proof Sys2Proof.Machine Sys2Proof.Safety

/-! ## Encoding and the step -/

/-- 30_encoding.md R52: the eleven codes select the eleven operations, with the operands of their format (R51), and
the codes 11 to 15 select none. -/
def Obligations.OperationCodesSelectOperations : Prop :=
  ∀ c : Command,
    (c.op = 0b0000 → decode c = .ok (.ck5Compute ⟨c.bitsPresent, c.bitsSize.toNat⟩)) ∧
    (c.op = 0b0001 → decode c = .ok (.ck5Verify ⟨c.bitsPresent, c.bitsSize.toNat⟩ c.expected)) ∧
    (c.op = 0b0010 → decode c = .ok (.crc8Compute ⟨c.bufPresent, c.bufSize.toNat⟩ c.len.toNat)) ∧
    (c.op = 0b0011 → decode c = .ok (.crc9Compute ⟨c.bufPresent, c.bufSize.toNat⟩ c.len.toNat)) ∧
    (c.op = 0b0100 → decode c = .ok (.ccitt1Verify ⟨c.bufPresent, c.bufSize.toNat⟩ c.len.toNat)) ∧
    (c.op = 0b0101 → decode c = .ok (.ccitt1Embed ⟨c.bufPresent, c.bufSize.toNat⟩ c.len.toNat)) ∧
    (c.op = 0b0110 → decode c = .ok (.ccitt2Verify ⟨c.bufPresent, c.bufSize.toNat⟩ c.len.toNat)) ∧
    (c.op = 0b0111 → decode c = .ok (.ccitt2Embed ⟨c.bufPresent, c.bufSize.toNat⟩ c.len.toNat)) ∧
    (c.op = 0b1000 → decode c = .ok (.crc32Verify ⟨c.bufPresent, c.bufSize.toNat⟩ c.len.toNat)) ∧
    (c.op = 0b1001 → decode c = .ok (.crc32Embed ⟨c.bufPresent, c.bufSize.toNat⟩ c.len.toNat)) ∧
    (c.op = 0b1010 → decode c = .ok (.ccittsCompute ⟨c.bufPresent, c.bufSize.toNat⟩ c.len.toNat)) ∧
    (11 ≤ c.op.toNat → decode c = .error (.reservedOp c.op))

/-- Decode and encode agree on every well-formed operation, every operand at every value (30_encoding.md sections 1,
2). -/
def Obligations.DecodeEncodeRoundTrip : Prop :=
  ∀ i : Instr, i.wellFormed = true → decode (encode i) = .ok i

/-- What the decoder reads is well-formed, and encoding it again presents the same code and the same field of every
operand of the format (30_encoding.md sections 1, 3): no bit of an operand is dropped. -/
def Obligations.DecodedOperandsAreThePortsFields : Prop :=
  ∀ (c : Command) (i : Instr), decode c = .ok i →
    i.wellFormed = true ∧ (encode i).op = c.op ∧
    (c.op.toNat < 2 → (encode i).bitsPresent = c.bitsPresent ∧ (encode i).bitsSize = c.bitsSize) ∧
    (c.op.toNat = 1 → (encode i).expected = c.expected) ∧
    (2 ≤ c.op.toNat →
      (encode i).bufPresent = c.bufPresent ∧ (encode i).bufSize = c.bufSize ∧ (encode i).len = c.len)

/-- A field outside the operation's format is ignored: commands that agree on `OP` and on the format's fields have the
same outcome (10_state.md section 4, 30_encoding.md section 1). -/
def Obligations.IgnoredFieldsDoNotMatter : Prop :=
  ∀ (s : State) (c d : Command), d.op = c.op →
    (c.op.toNat < 2 → d.bitsPresent = c.bitsPresent ∧ d.bitsSize = c.bitsSize) →
    (c.op.toNat = 1 → d.expected = c.expected) →
    (2 ≤ c.op.toNat → c.op.toNat < 11 →
      d.bufPresent = c.bufPresent ∧ d.bufSize = c.bufSize ∧ d.len = c.len) →
    step (s.issue d) = step (s.issue c)

/-- A step takes the pending command and runs the operation it decodes to; the command port is free again
(20_memory.md section 5, 30_encoding.md section 4). -/
def Obligations.StepRunsDecodedOperation : Prop :=
  ∀ (s : State) (c : Command) (i : Instr), s.command = some c → decode c = .ok i →
    step s = exec i { s with command := none }

/-- With no command pending the engine is idle and a step changes nothing: the model's choice of what a step is then
(log 8), from 60_exceptions.md section 6 (power states) and 10_state.md section 8. -/
def Obligations.IdleStepChangesNothing : Prop :=
  ∀ s : State, s.command = none → step s = .next s

/-- R54, R115: decoding is total; a reserved code raises `IllegalOp`, examines nothing, writes nothing. -/
def Obligations.ReservedCodeRaisesIllegalOp : Prop :=
  ∀ (s : State) (c : Command), s.command = some c →
    (c.op.toNat < 11 → ∃ i, decode c = .ok i) ∧
    (11 ≤ c.op.toNat → step s = .next { s with command := none, response := some ⟨4, false, 0⟩ })

/-- The fields of every response, and an error response changes nothing else (10_state.md section 5, 60_exceptions.md
sections 1, 2). -/
def Obligations.ResponseFieldsOfEveryEnding : Prop :=
  (∀ v, respValue v = ⟨0, false, v⟩) ∧ (∀ b, respVerdict b = ⟨0, b, 0⟩) ∧ respDone = ⟨0, false, 0⟩ ∧
    ∀ s : State,
      s.raise .missingInput = { s with response := some ⟨1, false, 0⟩ } ∧
      s.raise .rangeViolation = { s with response := some ⟨2, false, 0⟩ } ∧
      s.raise .boundsFault = { s with response := some ⟨3, false, 0⟩ } ∧
      s.raise .illegalOp = { s with response := some ⟨4, false, 0⟩ }

/-- After reset the engine is idle, nothing is pending, and the five ROMs hold their contents (10_state.md section 8,
70_reset_and_hazards.md section 1). -/
def Obligations.ResetIsIdleWithRomsValid : Prop :=
  State.reset.command = none ∧ State.reset.response = none ∧
    (∀ i : Byte, romRead State.reset.rom8 i = Config.table8 i) ∧
    (∀ i : Byte, romRead State.reset.romC1 i = Config.table1 i) ∧
    (∀ i : Byte, romRead State.reset.romC2 i = Config.table2 i) ∧
    (∀ i : Byte, romRead State.reset.rom32 i = Config.table32 i) ∧
    State.reset.rom9.length = Config.n9 ∧ 7 ≤ Config.n9 ∧
    ∀ i, i < Config.n9 → State.reset.rom9[i]? = some (Config.table9 i)

/-! ## The eleven operations -/

/-- 41_modular_checksum_5bit.md, `CK5.COMPUTE`. That group `k` is elements 8k to 8k+7 the spec marks as derived
("admits no other grouping"); an empty array as missing and a short one as a bounds fault are its decisions D7 and D8.
-/
def Obligations.Ck5ComputeIsByteSumMod31 : Prop :=
  ∀ (bits : Descriptor) (s : State),
    (Absent bits → exec (.ck5Compute bits) s = .next (s.raise .missingInput)) ∧
    (Usable bits → bits.size < 72 → exec (.ck5Compute bits) s = .next (s.raise .boundsFault)) ∧
    (Usable bits → 72 ≤ bits.size →
      ∃ t, exec (.ck5Compute bits) s = .next t ∧
        t.response = some (respValue (BitVec.ofNat 32 (modularSum (groupsOf s)))) ∧ KeepsAllButSum s t)

/-- 41_modular_checksum_5bit.md, `CK5.VERIFY`: the comparison is of whole 32-bit values (decision D12); the grouping
as in `Ck5ComputeIsByteSumMod31`. -/
def Obligations.Ck5VerifyComparesWholeValue : Prop :=
  ∀ (bits : Descriptor) (expected : Word) (s : State),
    (Absent bits → exec (.ck5Verify bits expected) s = .next (s.raise .missingInput)) ∧
    (Usable bits → bits.size < 72 → exec (.ck5Verify bits expected) s = .next (s.raise .boundsFault)) ∧
    (Usable bits → 72 ≤ bits.size →
      ∃ t, exec (.ck5Verify bits expected) s = .next t ∧
        t.response = some (respVerdict (decide (modularSum (groupsOf s) = expected.toNat))) ∧ KeepsAllButSum s t)

/-- 42_crc_8bit.md R75, with its checks (the spec's decisions D7, D8). -/
def Obligations.Crc8ComputeFollowsTable8 : Prop :=
  ∀ (buf : Descriptor) (len : Nat) (s : State), (Instr.crc8Compute buf len).wellFormed = true →
    (Absent buf → exec (.crc8Compute buf len) s = .next (s.raise .missingInput)) ∧
    (Usable buf → buf.size < len → exec (.crc8Compute buf len) s = .next (s.raise .boundsFault)) ∧
    (Usable buf → len ≤ buf.size →
      ∃ t, exec (.crc8Compute buf len) s = .next t ∧
        t.response = some (respValue ((crc8Of s.rom8 (bytesOf s len)).setWidth 32)) ∧
        KeepsAllButAcc s t ∧ SameBytes s t)

/-- 43_crc_9bit.md: ROM9 has at least the seven entries the file requires. The initial accumulator 0 the spec marks as
derived ("the only value the text can yield before the complement is the empty exclusive or, 0"); the check against
the table is its decision D11, and that `N9` is the length of `rom9` is the model's reading (log 2). -/
def Obligations.Crc9ComputeXorsSetBitsOutsideWindow : Prop :=
  ∀ (buf : Descriptor) (bitLen : Nat) (s : State), (Instr.crc9Compute buf bitLen).wellFormed = true →
    (Absent buf → exec (.crc9Compute buf bitLen) s = .next (s.raise .missingInput)) ∧
    (Usable buf → 8 * buf.size < bitLen ∨ s.rom9.length + 9 < bitLen →
      exec (.crc9Compute buf bitLen) s = .next (s.raise .boundsFault)) ∧
    (Usable buf → bitLen ≤ 8 * buf.size → bitLen ≤ s.rom9.length + 9 → 7 ≤ s.rom9.length →
      ∃ t, exec (.crc9Compute buf bitLen) s = .next t ∧
        t.response = some (respValue ((crc9Of s.rom9 (crc9Positions s bitLen)).setWidth 32)) ∧
        KeepsAllButAcc s t ∧ SameBytes s t)

/-- 44_crc_16bit_ccitt_variants.md R85, R86. -/
def Obligations.Ccitt1VerifyChecksFooter : Prop :=
  ∀ (buf : Descriptor) (len : Nat) (s : State), (Instr.ccitt1Verify buf len).wellFormed = true →
    (Absent buf → exec (.ccitt1Verify buf len) s = .next (s.raise .missingInput)) ∧
    (Usable buf → len < 2 → exec (.ccitt1Verify buf len) s = .next (s.raise .rangeViolation)) ∧
    (Usable buf → 2 ≤ len → buf.size < len → exec (.ccitt1Verify buf len) s = .next (s.raise .boundsFault)) ∧
    (Usable buf → 2 ≤ len → len ≤ buf.size →
      ∃ t, exec (.ccitt1Verify buf len) s = .next t ∧
        t.response = some (respVerdict (decide
          (s.bufByte (len - 1) = BitVec.extractLsb' 0 8 (ccitt1Of s.romC1 (bytesOf s (len - 2))) ∧
            s.bufByte (len - 2) = BitVec.extractLsb' 8 8 (ccitt1Of s.romC1 (bytesOf s (len - 2)))))) ∧
        KeepsAllButAcc s t ∧ SameBytes s t)

/-- R85, R87: the footer most significant byte first, and no other byte. -/
def Obligations.Ccitt1EmbedStoresFooter : Prop :=
  ∀ (buf : Descriptor) (len : Nat) (s : State), (Instr.ccitt1Embed buf len).wellFormed = true →
    (Absent buf → exec (.ccitt1Embed buf len) s = .next (s.raise .missingInput)) ∧
    (Usable buf → len < 2 → exec (.ccitt1Embed buf len) s = .next (s.raise .rangeViolation)) ∧
    (Usable buf → 2 ≤ len → buf.size < len → exec (.ccitt1Embed buf len) s = .next (s.raise .boundsFault)) ∧
    (Usable buf → 2 ≤ len → len ≤ buf.size →
      ∃ t, exec (.ccitt1Embed buf len) s = .next t ∧ t.response = some respDone ∧
        (Memory.wf unlistedByte s.buf →
          t.bufByte (len - 2) = BitVec.extractLsb' 8 8 (ccitt1Of s.romC1 (bytesOf s (len - 2))) ∧
          t.bufByte (len - 1) = BitVec.extractLsb' 0 8 (ccitt1Of s.romC1 (bytesOf s (len - 2)))) ∧
        KeepsAllButAcc s t ∧ ∀ a, a ≠ len - 2 → a ≠ len - 1 → t.bufByte a = s.bufByte a)

/-- R89, R90: footer byte placement swapped relative to variant 1. -/
def Obligations.Ccitt2VerifyChecksFooter : Prop :=
  ∀ (buf : Descriptor) (len : Nat) (s : State), (Instr.ccitt2Verify buf len).wellFormed = true →
    (Absent buf → exec (.ccitt2Verify buf len) s = .next (s.raise .missingInput)) ∧
    (Usable buf → len < 2 → exec (.ccitt2Verify buf len) s = .next (s.raise .rangeViolation)) ∧
    (Usable buf → 2 ≤ len → buf.size < len → exec (.ccitt2Verify buf len) s = .next (s.raise .boundsFault)) ∧
    (Usable buf → 2 ≤ len → len ≤ buf.size →
      ∃ t, exec (.ccitt2Verify buf len) s = .next t ∧
        t.response = some (respVerdict (decide
          (s.bufByte (len - 1) = BitVec.extractLsb' 8 8 (ccitt2Of s.romC2 (bytesOf s (len - 2))) ∧
            s.bufByte (len - 2) = BitVec.extractLsb' 0 8 (ccitt2Of s.romC2 (bytesOf s (len - 2)))))) ∧
        KeepsAllButAcc s t ∧ SameBytes s t)

/-- R89, R91: the footer least significant byte first, and no other byte. -/
def Obligations.Ccitt2EmbedStoresFooter : Prop :=
  ∀ (buf : Descriptor) (len : Nat) (s : State), (Instr.ccitt2Embed buf len).wellFormed = true →
    (Absent buf → exec (.ccitt2Embed buf len) s = .next (s.raise .missingInput)) ∧
    (Usable buf → len < 2 → exec (.ccitt2Embed buf len) s = .next (s.raise .rangeViolation)) ∧
    (Usable buf → 2 ≤ len → buf.size < len → exec (.ccitt2Embed buf len) s = .next (s.raise .boundsFault)) ∧
    (Usable buf → 2 ≤ len → len ≤ buf.size →
      ∃ t, exec (.ccitt2Embed buf len) s = .next t ∧ t.response = some respDone ∧
        (Memory.wf unlistedByte s.buf →
          t.bufByte (len - 2) = BitVec.extractLsb' 0 8 (ccitt2Of s.romC2 (bytesOf s (len - 2))) ∧
          t.bufByte (len - 1) = BitVec.extractLsb' 8 8 (ccitt2Of s.romC2 (bytesOf s (len - 2)))) ∧
        KeepsAllButAcc s t ∧ ∀ a, a ≠ len - 2 → a ≠ len - 1 → t.bufByte a = s.bufByte a)

/-- 45_crc_32bit.md, `CRC32.VERIFY`. That each of the four footer bytes is compared the spec marks as derived
("follows from the shared layout"). -/
def Obligations.Crc32VerifyChecksFooter : Prop :=
  ∀ (buf : Descriptor) (len : Nat) (s : State), (Instr.crc32Verify buf len).wellFormed = true →
    (Absent buf → exec (.crc32Verify buf len) s = .next (s.raise .missingInput)) ∧
    (Usable buf → len < 4 → exec (.crc32Verify buf len) s = .next (s.raise .rangeViolation)) ∧
    (Usable buf → 4 ≤ len → buf.size < len → exec (.crc32Verify buf len) s = .next (s.raise .boundsFault)) ∧
    (Usable buf → 4 ≤ len → len ≤ buf.size →
      ∃ t, exec (.crc32Verify buf len) s = .next t ∧
        t.response = some (respVerdict (decide
          (s.bufByte (len - 4) = BitVec.extractLsb' 24 8 (crc32Of s.rom32 (bytesOf s (len - 4))) ∧
            s.bufByte (len - 3) = BitVec.extractLsb' 16 8 (crc32Of s.rom32 (bytesOf s (len - 4))) ∧
            s.bufByte (len - 2) = BitVec.extractLsb' 8 8 (crc32Of s.rom32 (bytesOf s (len - 4))) ∧
            s.bufByte (len - 1) = BitVec.extractLsb' 0 8 (crc32Of s.rom32 (bytesOf s (len - 4)))))) ∧
        KeepsAllButAcc s t ∧ SameBytes s t)

/-- R95, R97: the footer most significant byte first, and no other byte. -/
def Obligations.Crc32EmbedStoresFooter : Prop :=
  ∀ (buf : Descriptor) (len : Nat) (s : State), (Instr.crc32Embed buf len).wellFormed = true →
    (Absent buf → exec (.crc32Embed buf len) s = .next (s.raise .missingInput)) ∧
    (Usable buf → len < 4 → exec (.crc32Embed buf len) s = .next (s.raise .rangeViolation)) ∧
    (Usable buf → 4 ≤ len → buf.size < len → exec (.crc32Embed buf len) s = .next (s.raise .boundsFault)) ∧
    (Usable buf → 4 ≤ len → len ≤ buf.size →
      ∃ t, exec (.crc32Embed buf len) s = .next t ∧ t.response = some respDone ∧
        (Memory.wf unlistedByte s.buf →
          t.bufByte (len - 4) = BitVec.extractLsb' 24 8 (crc32Of s.rom32 (bytesOf s (len - 4))) ∧
          t.bufByte (len - 3) = BitVec.extractLsb' 16 8 (crc32Of s.rom32 (bytesOf s (len - 4))) ∧
          t.bufByte (len - 2) = BitVec.extractLsb' 8 8 (crc32Of s.rom32 (bytesOf s (len - 4))) ∧
          t.bufByte (len - 1) = BitVec.extractLsb' 0 8 (crc32Of s.rom32 (bytesOf s (len - 4)))) ∧
        KeepsAllButAcc s t ∧ ∀ a, a < len - 4 ∨ len ≤ a → t.bufByte a = s.bufByte a)

/-- 46_crc_16bit_bit_serial.md R100: the raw accumulator, not complemented. -/
def Obligations.CcittsComputeIsBitSerial : Prop :=
  ∀ (buf : Descriptor) (bitLen : Nat) (s : State), (Instr.ccittsCompute buf bitLen).wellFormed = true →
    (Absent buf → exec (.ccittsCompute buf bitLen) s = .next (s.raise .missingInput)) ∧
    (Usable buf → 8 * buf.size < bitLen → exec (.ccittsCompute buf bitLen) s = .next (s.raise .boundsFault)) ∧
    (Usable buf → bitLen ≤ 8 * buf.size →
      ∃ t, exec (.ccittsCompute buf bitLen) s = .next t ∧
        t.response = some (respValue ((bitSerialOf (bitsOf s bitLen)).setWidth 32)) ∧
        KeepsAllButAcc s t ∧ SameBytes s t)

/-! ## Errors -/

/-- The table of error kinds and their priority (60_exceptions.md sections 1 and 3): exactly one kind is reported, the
first that applies in the order `IllegalOp`, `MissingInput`, `RangeViolation`, `BoundsFault`; if none applies the command
ends normally. That `N9` of the table's CRC9 row is the length of `rom9` is the model's reading (log 2). -/
def Obligations.FirstApplicableErrorIsReported : Prop :=
  ∀ (s : State) (c : Command), s.command = some c → 7 ≤ s.rom9.length →
    (∀ e, decode c = .error e → step s = .next (s.accept.raise .illegalOp)) ∧
    ∀ i, decode c = .ok i →
      (Absent (requiredInput i) → step s = .next (s.accept.raise .missingInput)) ∧
      (Usable (requiredInput i) → FooterTooWide i → step s = .next (s.accept.raise .rangeViolation)) ∧
      (Usable (requiredInput i) → ¬ FooterTooWide i → ExtentTooLong s.rom9.length i →
        step s = .next (s.accept.raise .boundsFault)) ∧
      (Admitted s.rom9.length i →
        ∃ t r, step s = .next t ∧ t.response = some r ∧ r.status = 0 ∧ t.command = none)

/-- A command that ends with an error has no effect but its response (60_exceptions.md section 2): no byte is written,
no register, no ROM, no free value is drawn. -/
def Obligations.FailingCommandHasNoEffect : Prop :=
  ∀ (s t : State) (c : Command) (r : Response), s.command = some c → step s = .next t → t.response = some r →
    r.status ≠ 0 → t = { s with command := none, response := some r }

/-- R118: after an error the next command runs exactly as if the failing one had never been issued; the same command
on the same buffer fails the same way. -/
def Obligations.ErrorLeavesNothingBehind : Prop :=
  ∀ (s t : State) (c : Command) (k : ErrorKind), 7 ≤ s.rom9.length → step (s.issue c) = .next t →
    t.response = some (respError k) →
    (∀ d : Command, step (t.issue d) = step (s.issue d)) ∧ step (t.issue c) = .next t

/-! ## Whole-machine rules -/

/-- Every step of a state with the invariant gives a state with the invariant (20_memory.md section 1, 10_state.md
section 5, 43_crc_9bit.md). -/
def Obligations.StepKeepsInvariant : Prop :=
  ∀ s t : State, Inv s → step s = .next t → Inv t

/-- The invariant holds at reset. -/
def Obligations.ResetMeetsInvariant : Prop := Inv State.reset

/-- Every command gets one response the spec allows, and no step of a machine with a ROM9 of at least seven words ends
in a fault or a refusal (10_state.md section 5, 70_reset_and_hazards.md section 4). With no command pending, that a step
answers a next state is the model's choice (log 8). -/
def Obligations.EveryCommandIsAnswered : Prop :=
  ∀ s : State, 7 ≤ s.rom9.length →
    ∃ t, step s = .next t ∧ t.command = none ∧
      ∀ c, s.command = some c → ∃ r, t.response = some r ∧ LegalResponse r

/-- Only an Embed writes, only into its footer; the ROMs and the bit array are never written (20_memory.md sections 1,
5; the ROM part of R46). -/
def Obligations.StepWritesOnlyEmbedFooters : Prop :=
  ∀ s t : State, step s = .next t →
    SameRoms s t ∧ SameBits s t ∧
      ∀ a, t.bufByte a ≠ s.bufByte a →
        ∃ c buf len, s.command = some c ∧ len ≤ buf.size ∧
          ((decode c = .ok (.ccitt1Embed buf len) ∧ 2 ≤ len ∧ len - 2 ≤ a ∧ a < len) ∨
            (decode c = .ok (.ccitt2Embed buf len) ∧ 2 ≤ len ∧ len - 2 ≤ a ∧ a < len) ∨
            (decode c = .ok (.crc32Embed buf len) ∧ 4 ≤ len ∧ len - 4 ≤ a ∧ a < len))

/-- 10_state.md section 1 (its consequences (a) and (b), of which the spec marks (a) as derived): nothing but the ROM
contents survives an operation. The response and the buffer afterwards are functions of the ROM contents, the command
and the contents of the buffer and the bit array; ACC, SUM, IDX and the last response play no part; and the ROM
contents never change. -/
def Obligations.ResponseDependsOnRomsCommandAndBuffers : Prop :=
  ∀ (s u : State) (c : Command), Inv s → Inv u → SameRoms s u → SameBytes s u → SameBits s u →
    ∃ s' u', step (s.issue c) = .next s' ∧ step (u.issue c) = .next u' ∧
      u'.response = s'.response ∧ SameBytes s' u' ∧ SameRoms s s' ∧ SameRoms u u'

/-- Compute and Verify operations read the ROM of their own family and their own extent, nothing else (20_memory.md
section 3, 40_bit_packer_and_roms.md section 2): bytes at `LEN` and above, bits beyond a bit count, elements 72 and
above and the other ROMs play no part. -/
def Obligations.ComputeAndVerifyReadOnlyTheirExtent : Prop :=
  ∀ (s u : State) (d : Descriptor) (n : Nat), n < 2 ^ 32 → 7 ≤ s.rom9.length →
    ((∀ k, k < 72 → u.bitAt k = s.bitAt k) →
      SameAnswer (exec (.ck5Compute d) s) (exec (.ck5Compute d) u) ∧
      ∀ e, SameAnswer (exec (.ck5Verify d e) s) (exec (.ck5Verify d e) u)) ∧
    ((∀ a, a < n → u.bufByte a = s.bufByte a) →
      (u.rom8 = s.rom8 → SameAnswer (exec (.crc8Compute d n) s) (exec (.crc8Compute d n) u)) ∧
      (u.romC1 = s.romC1 → SameAnswer (exec (.ccitt1Verify d n) s) (exec (.ccitt1Verify d n) u)) ∧
      (u.romC2 = s.romC2 → SameAnswer (exec (.ccitt2Verify d n) s) (exec (.ccitt2Verify d n) u)) ∧
      (u.rom32 = s.rom32 → SameAnswer (exec (.crc32Verify d n) s) (exec (.crc32Verify d n) u))) ∧
    ((∀ i, i < n → u.bufBit i = s.bufBit i) →
      (u.rom9 = s.rom9 → SameAnswer (exec (.crc9Compute d n) s) (exec (.crc9Compute d n) u)) ∧
      SameAnswer (exec (.ccittsCompute d n) s) (exec (.ccittsCompute d n) u))

/-- An Embed reads its payload and the ROM of its own family, nothing else: whatever stood in the footer, the same
footer is stored (44_crc_16bit_ccitt_variants.md, 45_crc_32bit.md, 70_reset_and_hazards.md section 3). -/
def Obligations.EmbedReadsOnlyPayload : Prop :=
  ∀ (s u : State) (buf : Descriptor) (n : Nat), n < 2 ^ 32 → Usable buf → n ≤ buf.size →
    Memory.wf unlistedByte s.buf → Memory.wf unlistedByte u.buf →
    (2 ≤ n → (∀ a, a < n - 2 → u.bufByte a = s.bufByte a) →
      (u.romC1 = s.romC1 → ∃ s' u', exec (.ccitt1Embed buf n) s = .next s' ∧ exec (.ccitt1Embed buf n) u = .next u' ∧
        ∀ a, a < n → u'.bufByte a = s'.bufByte a) ∧
      (u.romC2 = s.romC2 → ∃ s' u', exec (.ccitt2Embed buf n) s = .next s' ∧ exec (.ccitt2Embed buf n) u = .next u' ∧
        ∀ a, a < n → u'.bufByte a = s'.bufByte a)) ∧
    (4 ≤ n → (∀ a, a < n - 4 → u.bufByte a = s.bufByte a) → u.rom32 = s.rom32 →
      ∃ s' u', exec (.crc32Embed buf n) s = .next s' ∧ exec (.crc32Embed buf n) u = .next u' ∧
        ∀ a, a < n → u'.bufByte a = s'.bufByte a)

/-! ## Laws of the families -/

/-- The round trip of 44_crc_16bit_ccitt_variants.md section 3, which the spec marks as derived from its rules: Embed
followed by Verify on the same buffer answers 1, for either variant and any ROM contents; on an empty payload
`CCITT1.EMBED` followed by `CCITT2.VERIFY` answers 0. -/
def Obligations.CcittRoundTrip : Prop :=
  ∀ (buf : Descriptor) (len : Nat) (s : State), Memory.wf unlistedByte s.buf → Usable buf → len < 2 ^ 32 → 2 ≤ len →
    len ≤ buf.size →
    (∃ t u, exec (.ccitt1Embed buf len) s = .next t ∧ exec (.ccitt1Verify buf len) t = .next u ∧
      u.response = some (respVerdict true)) ∧
    (∃ t u, exec (.ccitt2Embed buf len) s = .next t ∧ exec (.ccitt2Verify buf len) t = .next u ∧
      u.response = some (respVerdict true)) ∧
    (len = 2 → ∃ t u, exec (.ccitt1Embed buf len) s = .next t ∧ exec (.ccitt2Verify buf len) t = .next u ∧
      u.response = some (respVerdict false))

/-- The same for CRC32 (45_crc_32bit.md, marked as derived there); the empty payload of four zero bytes turns into
four 0xFF bytes and verifies. -/
def Obligations.Crc32RoundTrip : Prop :=
  ∀ (buf : Descriptor) (len : Nat) (s : State), Memory.wf unlistedByte s.buf → Usable buf → len < 2 ^ 32 → 4 ≤ len →
    len ≤ buf.size →
    ∃ t u, exec (.crc32Embed buf len) s = .next t ∧ exec (.crc32Verify buf len) t = .next u ∧
      u.response = some (respVerdict true) ∧
      (len = 4 → ∀ a, a < 4 → t.bufByte a = 0xFF)

/-- The footers of an empty payload, for any ROM contents (corner cases of 44_crc_16bit_ccitt_variants.md and
45_crc_32bit.md; boundary property P5 of 95_test_vectors.md). -/
def Obligations.EmptyPayloadFooters : Prop :=
  ∀ (buf : Descriptor) (s : State), Memory.wf unlistedByte s.buf → buf.present = true →
    (2 ≤ buf.size →
      (∃ t, exec (.ccitt1Embed buf 2) s = .next t ∧ t.bufByte 0 = 0x00 ∧ t.bufByte 1 = 0x00) ∧
      (∃ t, exec (.ccitt2Embed buf 2) s = .next t ∧ t.bufByte 0 = 0xFF ∧ t.bufByte 1 = 0xFF)) ∧
    (4 ≤ buf.size → ∃ t, exec (.crc32Embed buf 4) s = .next t ∧ ∀ a, a < 4 → t.bufByte a = 0xFF)

/-- Arithmetic of 46_crc_16bit_bit_serial.md: the formula of one step; for a fixed input bit it is a bijection of the
accumulator; and two messages of equal length that differ in exactly one bit give different results (both marked as
derived there). -/
def Obligations.BitSerialDetectsSingleBit : Prop :=
  (∀ (a : Half) (b : Bool),
    bitSerialShift a b = ((a <<< 1) &&& 0xFFFF) ^^^ (if b ≠ a.getLsbD 15 then 0x1021 else 0)) ∧
  (∀ b : Bool, Function.Bijective fun a : Half => bitSerialShift a b) ∧
  ∀ (buf : Descriptor) (bitLen k : Nat) (s u : State), (Instr.ccittsCompute buf bitLen).wellFormed = true →
    Usable buf → bitLen ≤ 8 * buf.size → k < bitLen → u.bufBit k ≠ s.bufBit k →
    (∀ i, i < bitLen → i ≠ k → u.bufBit i = s.bufBit i) →
    ∃ s' u', exec (.ccittsCompute buf bitLen) s = .next s' ∧ exec (.ccittsCompute buf bitLen) u = .next u' ∧
      u'.response ≠ s'.response

/-- What 41_modular_checksum_5bit.md says the checksum detects (marked as derived there): only the sum of the nine bytes
matters, so equal sums and in particular reordered bytes give equal results; changing one byte changes the result exactly
when 31 does not divide the difference; every change of a single bit is detected. -/
def Obligations.Ck5DetectsWhat31DoesNotDivide : Prop :=
  ∀ (bits : Descriptor) (s u : State), Usable bits → 72 ≤ bits.size →
    ∃ s' u', exec (.ck5Compute bits) s = .next s' ∧ exec (.ck5Compute bits) u = .next u' ∧
      (((groupsOf u).map BitVec.toNat).sum = ((groupsOf s).map BitVec.toNat).sum → u'.response = s'.response) ∧
      ((groupsOf u).Perm (groupsOf s) → u'.response = s'.response) ∧
      (∀ k, k < 9 → (∀ j, j < 9 → j ≠ k → u.packedAt (8 * j) = s.packedAt (8 * j)) →
        (u'.response = s'.response ↔
          (31 : Int) ∣ ((u.packedAt (8 * k)).toNat : Int) - ((s.packedAt (8 * k)).toNat : Int))) ∧
      (∀ k, k < 72 → u.bitAt k ≠ s.bitAt k → (∀ j, j < 72 → j ≠ k → u.bitAt j = s.bitAt j) →
        u'.response ≠ s'.response)

/-- The 5-bit result is at most 30, and no `EXPECTED` of 31 or more ever verifies (corner cases of
41_modular_checksum_5bit.md). -/
def Obligations.Ck5ResultAtMost30 : Prop :=
  ∀ (bits : Descriptor) (s : State), Usable bits → 72 ≤ bits.size →
    (∃ t v, exec (.ck5Compute bits) s = .next t ∧ t.response = some (respValue v) ∧ v.toNat ≤ 30) ∧
    ∀ e : Word, 31 ≤ e.toNat →
      ∃ t, exec (.ck5Verify bits e) s = .next t ∧ t.response = some (respVerdict false)

/-- Bits 7 to 15 never change the result (43_crc_9bit.md, marked as derived there). -/
def Obligations.Crc9IgnoresWindowBits : Prop :=
  ∀ (buf : Descriptor) (bitLen : Nat) (s u : State), (Instr.crc9Compute buf bitLen).wellFormed = true →
    7 ≤ s.rom9.length → u.rom9 = s.rom9 →
    (∀ i, i < bitLen → i < 7 ∨ 15 < i → u.bufBit i = s.bufBit i) →
    SameAnswer (exec (.crc9Compute buf bitLen) s) (exec (.crc9Compute buf bitLen) u)

/-- Bit counts 7 to 16 cover the same table entries and give the same value (corner case of 43_crc_9bit.md). -/
def Obligations.Crc9CountsSevenToSixteenAgree : Prop :=
  ∀ (buf : Descriptor) (bitLen : Nat) (s : State), Usable buf → 7 ≤ s.rom9.length → 7 ≤ bitLen → bitLen ≤ 16 →
    bitLen ≤ 8 * buf.size →
    SameAnswer (exec (.crc9Compute buf 7) s) (exec (.crc9Compute buf bitLen) s)

/-! ## The bit_packer and the working registers -/

/-- R60: bit addresses run most significant bit first. -/
def Obligations.ReadBitIsMostSignificantFirst : Prop :=
  ∀ (buf : Descriptor) (i : Nat) (s : State), i < 8 * buf.size →
    readBit buf i s = .ok (decide ((s.bufByte (i / 8) >>> (7 - i % 8)) &&& 1 = 1))

/-- Packing runs most significant bit first, and agrees with the bit addresses of the buffer (20_memory.md section 2,
the agreement marked as derived there). -/
def Obligations.PackingAgreesWithBitAddresses : Prop :=
  (∀ (s : State) (k j : Nat), j < 8 → (s.packedAt k).getLsbD (7 - j) = s.bitAt (k + j)) ∧
  ∀ (s : State) (j : Nat), (∀ k, k < 8 * j + 8 → s.bitAt k = s.bufBit k) → s.packedAt (8 * j) = s.bufByte j

/-- SUM after the nine groups is the exact sum of the nine bytes, at most 2295: it never wraps; IDX has counted the
nine groups (10_state.md section 3). -/
def Obligations.Ck5SumIsExact : Prop :=
  ∀ (bits : Descriptor) (s : State), 72 ≤ bits.size →
    ∃ t, ck5Sum bits s = .ok t ∧ t.sum.toNat = ((groupsOf s).map BitVec.toNat).sum ∧ t.sum.toNat ≤ 2295 ∧
      t.idx.toNat = 9

/-- At the end of each computation IDX has reached the bound of its loop and ACC holds a value of the family's width
(10_state.md section 3). The families with a footer ask for a `LEN` that holds it, as their cores do; CRC9 asks for the
seven words the spec requires of ROM9 and a count its table serves, with `N9` as the length of `rom9` (log 2). -/
def Obligations.LoopsEndAtTheirBound : Prop :=
  ∀ (buf : Descriptor) (n : Nat) (s : State), n < 2 ^ 32 →
    (n ≤ buf.size →
      (∃ t, crc8Core buf n s = .ok t ∧ t.idx.toNat = n ∧ t.acc.toNat < 2 ^ 8) ∧
      (2 ≤ n →
        (∃ t, ccitt1Core buf n s = .ok t ∧ t.idx.toNat = n - 2 ∧ t.acc.toNat < 2 ^ 16) ∧
        (∃ t, ccitt2Core buf n s = .ok t ∧ t.idx.toNat = n - 2 ∧ t.acc.toNat < 2 ^ 16)) ∧
      (4 ≤ n → ∃ t, crc32Core buf n s = .ok t ∧ t.idx.toNat = n - 4)) ∧
    (n ≤ 8 * buf.size →
      (7 ≤ s.rom9.length → n ≤ s.rom9.length + 9 →
        ∃ t, crc9Core buf n s = .ok t ∧ t.idx.toNat = n ∧ t.acc.toNat < 2 ^ 9) ∧
      ∃ t, bitSerialCore buf n s = .ok t ∧ t.idx.toNat = n ∧ t.acc.toNat < 2 ^ 16)

/-- An operation leaves the working register it does not use as it was: ACC for the two operations of the 5-bit checksum,
SUM for all others; a failing one leaves both. This is the model's choice (log 4): the spec says that between operations
these registers hold any value (10_state.md section 3). -/
def Obligations.UnusedWorkingRegisterIsKept : Prop :=
  ∀ (i : Instr) (s t : State), exec i s = .next t →
    (usesSum i = true → t.acc = s.acc) ∧ (usesSum i = false → t.sum = s.sum)

/-! ## Reset -/

/-- After a reset the engine is idle, nothing is pending, the ROM contents are as they were, and the caller's buffer and
bit array are not touched; the invariant is kept (10_state.md section 8). A reset as an update of the state between steps is
the model's form of it (log 17). -/
def Obligations.ResetKeepsRomsAndCallerMemory : Prop :=
  ∀ s : State, s.afterReset.command = none ∧ s.afterReset.response = none ∧ SameRoms s s.afterReset ∧
    s.afterReset.buf = s.buf ∧ s.afterReset.bits = s.bits ∧ (Inv s → Inv s.afterReset)

/-- A reset cannot be told apart by any command: the response to a command after it, and the buffer afterwards, are those
of the same command without it (10_state.md section 8, marked as derived there; log 17). -/
def Obligations.ResetCannotBeToldApart : Prop :=
  ∀ (s : State) (c : Command), 7 ≤ s.rom9.length →
    ∃ t u, step (s.issue c) = .next t ∧ step (s.afterReset.issue c) = .next u ∧
      u.response = t.response ∧ u.buf = t.buf ∧ u.bits = t.bits
end

