-- ==== Sys2Proof/Laws/State.lean ====
section
/-!
SUPPORT. One lemma per field of State per named update, and the reads through each update: no later proof unfolds a
record update.
-/

namespace Sys2Proof.Machine

section
variable (s : State) (a : Nat) (v : Byte)

@[simp] theorem State.setByte_rom8 : (s.setByte a v).rom8 = s.rom8 := rfl
@[simp] theorem State.setByte_rom9 : (s.setByte a v).rom9 = s.rom9 := rfl
@[simp] theorem State.setByte_romC1 : (s.setByte a v).romC1 = s.romC1 := rfl
@[simp] theorem State.setByte_romC2 : (s.setByte a v).romC2 = s.romC2 := rfl
@[simp] theorem State.setByte_rom32 : (s.setByte a v).rom32 = s.rom32 := rfl
@[simp] theorem State.setByte_acc : (s.setByte a v).acc = s.acc := rfl
@[simp] theorem State.setByte_sum : (s.setByte a v).sum = s.sum := rfl
@[simp] theorem State.setByte_idx : (s.setByte a v).idx = s.idx := rfl
@[simp] theorem State.setByte_command : (s.setByte a v).command = s.command := rfl
@[simp] theorem State.setByte_response : (s.setByte a v).response = s.response := rfl
@[simp] theorem State.setByte_buf : (s.setByte a v).buf = writeCell unlistedByte s.buf a v := rfl
@[simp] theorem State.setByte_bits : (s.setByte a v).bits = s.bits := rfl
@[simp] theorem State.setByte_freeCount : (s.setByte a v).freeCount = s.freeCount := rfl
@[simp] theorem State.setByte_bitAt (x : Nat) : (s.setByte a v).bitAt x = s.bitAt x := rfl
@[simp] theorem State.setByte_packedAt (x : Nat) : (s.setByte a v).packedAt x = s.packedAt x := rfl

end

section
variable (s : State) (v : BitVec 32)

@[simp] theorem State.setAcc_rom8 : (s.setAcc v).rom8 = s.rom8 := rfl
@[simp] theorem State.setAcc_rom9 : (s.setAcc v).rom9 = s.rom9 := rfl
@[simp] theorem State.setAcc_romC1 : (s.setAcc v).romC1 = s.romC1 := rfl
@[simp] theorem State.setAcc_romC2 : (s.setAcc v).romC2 = s.romC2 := rfl
@[simp] theorem State.setAcc_rom32 : (s.setAcc v).rom32 = s.rom32 := rfl
@[simp] theorem State.setAcc_acc : (s.setAcc v).acc = v := rfl
@[simp] theorem State.setAcc_sum : (s.setAcc v).sum = s.sum := rfl
@[simp] theorem State.setAcc_idx : (s.setAcc v).idx = s.idx := rfl
@[simp] theorem State.setAcc_command : (s.setAcc v).command = s.command := rfl
@[simp] theorem State.setAcc_response : (s.setAcc v).response = s.response := rfl
@[simp] theorem State.setAcc_buf : (s.setAcc v).buf = s.buf := rfl
@[simp] theorem State.setAcc_bits : (s.setAcc v).bits = s.bits := rfl
@[simp] theorem State.setAcc_freeCount : (s.setAcc v).freeCount = s.freeCount := rfl
@[simp] theorem State.setAcc_bufByte (x : Nat) : (s.setAcc v).bufByte x = s.bufByte x := rfl
@[simp] theorem State.setAcc_bufBit (x : Nat) : (s.setAcc v).bufBit x = s.bufBit x := rfl
@[simp] theorem State.setAcc_bitAt (x : Nat) : (s.setAcc v).bitAt x = s.bitAt x := rfl
@[simp] theorem State.setAcc_packedAt (x : Nat) : (s.setAcc v).packedAt x = s.packedAt x := rfl

end

section
variable (s : State) (v : BitVec 12)

@[simp] theorem State.setSum_rom8 : (s.setSum v).rom8 = s.rom8 := rfl
@[simp] theorem State.setSum_rom9 : (s.setSum v).rom9 = s.rom9 := rfl
@[simp] theorem State.setSum_romC1 : (s.setSum v).romC1 = s.romC1 := rfl
@[simp] theorem State.setSum_romC2 : (s.setSum v).romC2 = s.romC2 := rfl
@[simp] theorem State.setSum_rom32 : (s.setSum v).rom32 = s.rom32 := rfl
@[simp] theorem State.setSum_acc : (s.setSum v).acc = s.acc := rfl
@[simp] theorem State.setSum_sum : (s.setSum v).sum = v := rfl
@[simp] theorem State.setSum_idx : (s.setSum v).idx = s.idx := rfl
@[simp] theorem State.setSum_command : (s.setSum v).command = s.command := rfl
@[simp] theorem State.setSum_response : (s.setSum v).response = s.response := rfl
@[simp] theorem State.setSum_buf : (s.setSum v).buf = s.buf := rfl
@[simp] theorem State.setSum_bits : (s.setSum v).bits = s.bits := rfl
@[simp] theorem State.setSum_freeCount : (s.setSum v).freeCount = s.freeCount := rfl
@[simp] theorem State.setSum_bufByte (x : Nat) : (s.setSum v).bufByte x = s.bufByte x := rfl
@[simp] theorem State.setSum_bufBit (x : Nat) : (s.setSum v).bufBit x = s.bufBit x := rfl
@[simp] theorem State.setSum_bitAt (x : Nat) : (s.setSum v).bitAt x = s.bitAt x := rfl
@[simp] theorem State.setSum_packedAt (x : Nat) : (s.setSum v).packedAt x = s.packedAt x := rfl

end

section
variable (s : State) (v : BitVec 32)

@[simp] theorem State.setIdx_rom8 : (s.setIdx v).rom8 = s.rom8 := rfl
@[simp] theorem State.setIdx_rom9 : (s.setIdx v).rom9 = s.rom9 := rfl
@[simp] theorem State.setIdx_romC1 : (s.setIdx v).romC1 = s.romC1 := rfl
@[simp] theorem State.setIdx_romC2 : (s.setIdx v).romC2 = s.romC2 := rfl
@[simp] theorem State.setIdx_rom32 : (s.setIdx v).rom32 = s.rom32 := rfl
@[simp] theorem State.setIdx_acc : (s.setIdx v).acc = s.acc := rfl
@[simp] theorem State.setIdx_sum : (s.setIdx v).sum = s.sum := rfl
@[simp] theorem State.setIdx_idx : (s.setIdx v).idx = v := rfl
@[simp] theorem State.setIdx_command : (s.setIdx v).command = s.command := rfl
@[simp] theorem State.setIdx_response : (s.setIdx v).response = s.response := rfl
@[simp] theorem State.setIdx_buf : (s.setIdx v).buf = s.buf := rfl
@[simp] theorem State.setIdx_bits : (s.setIdx v).bits = s.bits := rfl
@[simp] theorem State.setIdx_freeCount : (s.setIdx v).freeCount = s.freeCount := rfl
@[simp] theorem State.setIdx_bufByte (x : Nat) : (s.setIdx v).bufByte x = s.bufByte x := rfl
@[simp] theorem State.setIdx_bufBit (x : Nat) : (s.setIdx v).bufBit x = s.bufBit x := rfl
@[simp] theorem State.setIdx_bitAt (x : Nat) : (s.setIdx v).bitAt x = s.bitAt x := rfl
@[simp] theorem State.setIdx_packedAt (x : Nat) : (s.setIdx v).packedAt x = s.packedAt x := rfl

end

section
variable (s : State) (r : Response)

@[simp] theorem State.respond_rom8 : (s.respond r).rom8 = s.rom8 := rfl
@[simp] theorem State.respond_rom9 : (s.respond r).rom9 = s.rom9 := rfl
@[simp] theorem State.respond_romC1 : (s.respond r).romC1 = s.romC1 := rfl
@[simp] theorem State.respond_romC2 : (s.respond r).romC2 = s.romC2 := rfl
@[simp] theorem State.respond_rom32 : (s.respond r).rom32 = s.rom32 := rfl
@[simp] theorem State.respond_acc : (s.respond r).acc = s.acc := rfl
@[simp] theorem State.respond_sum : (s.respond r).sum = s.sum := rfl
@[simp] theorem State.respond_idx : (s.respond r).idx = s.idx := rfl
@[simp] theorem State.respond_command : (s.respond r).command = s.command := rfl
@[simp] theorem State.respond_response : (s.respond r).response = some r := rfl
@[simp] theorem State.respond_buf : (s.respond r).buf = s.buf := rfl
@[simp] theorem State.respond_bits : (s.respond r).bits = s.bits := rfl
@[simp] theorem State.respond_freeCount : (s.respond r).freeCount = s.freeCount := rfl
@[simp] theorem State.respond_bufByte (x : Nat) : (s.respond r).bufByte x = s.bufByte x := rfl
@[simp] theorem State.respond_bufBit (x : Nat) : (s.respond r).bufBit x = s.bufBit x := rfl
@[simp] theorem State.respond_bitAt (x : Nat) : (s.respond r).bitAt x = s.bitAt x := rfl
@[simp] theorem State.respond_packedAt (x : Nat) : (s.respond r).packedAt x = s.packedAt x := rfl

end

section
variable (s : State) (k : ErrorKind)

@[simp] theorem State.raise_rom8 : (s.raise k).rom8 = s.rom8 := rfl
@[simp] theorem State.raise_rom9 : (s.raise k).rom9 = s.rom9 := rfl
@[simp] theorem State.raise_romC1 : (s.raise k).romC1 = s.romC1 := rfl
@[simp] theorem State.raise_romC2 : (s.raise k).romC2 = s.romC2 := rfl
@[simp] theorem State.raise_rom32 : (s.raise k).rom32 = s.rom32 := rfl
@[simp] theorem State.raise_acc : (s.raise k).acc = s.acc := rfl
@[simp] theorem State.raise_sum : (s.raise k).sum = s.sum := rfl
@[simp] theorem State.raise_idx : (s.raise k).idx = s.idx := rfl
@[simp] theorem State.raise_command : (s.raise k).command = s.command := rfl
@[simp] theorem State.raise_response : (s.raise k).response = some (respError k) := rfl
@[simp] theorem State.raise_buf : (s.raise k).buf = s.buf := rfl
@[simp] theorem State.raise_bits : (s.raise k).bits = s.bits := rfl
@[simp] theorem State.raise_freeCount : (s.raise k).freeCount = s.freeCount := rfl
@[simp] theorem State.raise_bufByte (x : Nat) : (s.raise k).bufByte x = s.bufByte x := rfl
@[simp] theorem State.raise_bufBit (x : Nat) : (s.raise k).bufBit x = s.bufBit x := rfl
@[simp] theorem State.raise_bitAt (x : Nat) : (s.raise k).bitAt x = s.bitAt x := rfl
@[simp] theorem State.raise_packedAt (x : Nat) : (s.raise k).packedAt x = s.packedAt x := rfl

end

section
variable (s : State)

@[simp] theorem State.accept_rom8 : (s.accept).rom8 = s.rom8 := rfl
@[simp] theorem State.accept_rom9 : (s.accept).rom9 = s.rom9 := rfl
@[simp] theorem State.accept_romC1 : (s.accept).romC1 = s.romC1 := rfl
@[simp] theorem State.accept_romC2 : (s.accept).romC2 = s.romC2 := rfl
@[simp] theorem State.accept_rom32 : (s.accept).rom32 = s.rom32 := rfl
@[simp] theorem State.accept_acc : (s.accept).acc = s.acc := rfl
@[simp] theorem State.accept_sum : (s.accept).sum = s.sum := rfl
@[simp] theorem State.accept_idx : (s.accept).idx = s.idx := rfl
@[simp] theorem State.accept_command : (s.accept).command = none := rfl
@[simp] theorem State.accept_response : (s.accept).response = s.response := rfl
@[simp] theorem State.accept_buf : (s.accept).buf = s.buf := rfl
@[simp] theorem State.accept_bits : (s.accept).bits = s.bits := rfl
@[simp] theorem State.accept_freeCount : (s.accept).freeCount = s.freeCount := rfl
@[simp] theorem State.accept_bufByte (x : Nat) : (s.accept).bufByte x = s.bufByte x := rfl
@[simp] theorem State.accept_bufBit (x : Nat) : (s.accept).bufBit x = s.bufBit x := rfl
@[simp] theorem State.accept_bitAt (x : Nat) : (s.accept).bitAt x = s.bitAt x := rfl
@[simp] theorem State.accept_packedAt (x : Nat) : (s.accept).packedAt x = s.packedAt x := rfl

end

section
variable (s : State)

@[simp] theorem State.releaseAcc_rom8 : (s.releaseAcc).rom8 = s.rom8 := rfl
@[simp] theorem State.releaseAcc_rom9 : (s.releaseAcc).rom9 = s.rom9 := rfl
@[simp] theorem State.releaseAcc_romC1 : (s.releaseAcc).romC1 = s.romC1 := rfl
@[simp] theorem State.releaseAcc_romC2 : (s.releaseAcc).romC2 = s.romC2 := rfl
@[simp] theorem State.releaseAcc_rom32 : (s.releaseAcc).rom32 = s.rom32 := rfl
@[simp] theorem State.releaseAcc_acc : (s.releaseAcc).acc = Config.freeAcc s.freeCount := rfl
@[simp] theorem State.releaseAcc_sum : (s.releaseAcc).sum = s.sum := rfl
@[simp] theorem State.releaseAcc_idx : (s.releaseAcc).idx = Config.freeIdx s.freeCount := rfl
@[simp] theorem State.releaseAcc_command : (s.releaseAcc).command = s.command := rfl
@[simp] theorem State.releaseAcc_response : (s.releaseAcc).response = s.response := rfl
@[simp] theorem State.releaseAcc_buf : (s.releaseAcc).buf = s.buf := rfl
@[simp] theorem State.releaseAcc_bits : (s.releaseAcc).bits = s.bits := rfl
@[simp] theorem State.releaseAcc_freeCount : (s.releaseAcc).freeCount = s.freeCount + 1 := rfl
@[simp] theorem State.releaseAcc_bufByte (x : Nat) : (s.releaseAcc).bufByte x = s.bufByte x := rfl
@[simp] theorem State.releaseAcc_bufBit (x : Nat) : (s.releaseAcc).bufBit x = s.bufBit x := rfl
@[simp] theorem State.releaseAcc_bitAt (x : Nat) : (s.releaseAcc).bitAt x = s.bitAt x := rfl
@[simp] theorem State.releaseAcc_packedAt (x : Nat) : (s.releaseAcc).packedAt x = s.packedAt x := rfl

end

section
variable (s : State)

@[simp] theorem State.releaseSum_rom8 : (s.releaseSum).rom8 = s.rom8 := rfl
@[simp] theorem State.releaseSum_rom9 : (s.releaseSum).rom9 = s.rom9 := rfl
@[simp] theorem State.releaseSum_romC1 : (s.releaseSum).romC1 = s.romC1 := rfl
@[simp] theorem State.releaseSum_romC2 : (s.releaseSum).romC2 = s.romC2 := rfl
@[simp] theorem State.releaseSum_rom32 : (s.releaseSum).rom32 = s.rom32 := rfl
@[simp] theorem State.releaseSum_acc : (s.releaseSum).acc = s.acc := rfl
@[simp] theorem State.releaseSum_sum : (s.releaseSum).sum = Config.freeSum s.freeCount := rfl
@[simp] theorem State.releaseSum_idx : (s.releaseSum).idx = Config.freeIdx s.freeCount := rfl
@[simp] theorem State.releaseSum_command : (s.releaseSum).command = s.command := rfl
@[simp] theorem State.releaseSum_response : (s.releaseSum).response = s.response := rfl
@[simp] theorem State.releaseSum_buf : (s.releaseSum).buf = s.buf := rfl
@[simp] theorem State.releaseSum_bits : (s.releaseSum).bits = s.bits := rfl
@[simp] theorem State.releaseSum_freeCount : (s.releaseSum).freeCount = s.freeCount + 1 := rfl
@[simp] theorem State.releaseSum_bufByte (x : Nat) : (s.releaseSum).bufByte x = s.bufByte x := rfl
@[simp] theorem State.releaseSum_bufBit (x : Nat) : (s.releaseSum).bufBit x = s.bufBit x := rfl
@[simp] theorem State.releaseSum_bitAt (x : Nat) : (s.releaseSum).bitAt x = s.bitAt x := rfl
@[simp] theorem State.releaseSum_packedAt (x : Nat) : (s.releaseSum).packedAt x = s.packedAt x := rfl

end

section
variable (s : State) (r : Response)

@[simp] theorem State.finishAcc_rom8 : (s.finishAcc r).rom8 = s.rom8 := rfl
@[simp] theorem State.finishAcc_rom9 : (s.finishAcc r).rom9 = s.rom9 := rfl
@[simp] theorem State.finishAcc_romC1 : (s.finishAcc r).romC1 = s.romC1 := rfl
@[simp] theorem State.finishAcc_romC2 : (s.finishAcc r).romC2 = s.romC2 := rfl
@[simp] theorem State.finishAcc_rom32 : (s.finishAcc r).rom32 = s.rom32 := rfl
@[simp] theorem State.finishAcc_acc : (s.finishAcc r).acc = Config.freeAcc s.freeCount := rfl
@[simp] theorem State.finishAcc_sum : (s.finishAcc r).sum = s.sum := rfl
@[simp] theorem State.finishAcc_idx : (s.finishAcc r).idx = Config.freeIdx s.freeCount := rfl
@[simp] theorem State.finishAcc_command : (s.finishAcc r).command = s.command := rfl
@[simp] theorem State.finishAcc_response : (s.finishAcc r).response = some r := rfl
@[simp] theorem State.finishAcc_buf : (s.finishAcc r).buf = s.buf := rfl
@[simp] theorem State.finishAcc_bits : (s.finishAcc r).bits = s.bits := rfl
@[simp] theorem State.finishAcc_freeCount : (s.finishAcc r).freeCount = s.freeCount + 1 := rfl
@[simp] theorem State.finishAcc_bufByte (x : Nat) : (s.finishAcc r).bufByte x = s.bufByte x := rfl
@[simp] theorem State.finishAcc_bufBit (x : Nat) : (s.finishAcc r).bufBit x = s.bufBit x := rfl
@[simp] theorem State.finishAcc_bitAt (x : Nat) : (s.finishAcc r).bitAt x = s.bitAt x := rfl
@[simp] theorem State.finishAcc_packedAt (x : Nat) : (s.finishAcc r).packedAt x = s.packedAt x := rfl

end

section
variable (s : State) (r : Response)

@[simp] theorem State.finishSum_rom8 : (s.finishSum r).rom8 = s.rom8 := rfl
@[simp] theorem State.finishSum_rom9 : (s.finishSum r).rom9 = s.rom9 := rfl
@[simp] theorem State.finishSum_romC1 : (s.finishSum r).romC1 = s.romC1 := rfl
@[simp] theorem State.finishSum_romC2 : (s.finishSum r).romC2 = s.romC2 := rfl
@[simp] theorem State.finishSum_rom32 : (s.finishSum r).rom32 = s.rom32 := rfl
@[simp] theorem State.finishSum_acc : (s.finishSum r).acc = s.acc := rfl
@[simp] theorem State.finishSum_sum : (s.finishSum r).sum = Config.freeSum s.freeCount := rfl
@[simp] theorem State.finishSum_idx : (s.finishSum r).idx = Config.freeIdx s.freeCount := rfl
@[simp] theorem State.finishSum_command : (s.finishSum r).command = s.command := rfl
@[simp] theorem State.finishSum_response : (s.finishSum r).response = some r := rfl
@[simp] theorem State.finishSum_buf : (s.finishSum r).buf = s.buf := rfl
@[simp] theorem State.finishSum_bits : (s.finishSum r).bits = s.bits := rfl
@[simp] theorem State.finishSum_freeCount : (s.finishSum r).freeCount = s.freeCount + 1 := rfl
@[simp] theorem State.finishSum_bufByte (x : Nat) : (s.finishSum r).bufByte x = s.bufByte x := rfl
@[simp] theorem State.finishSum_bufBit (x : Nat) : (s.finishSum r).bufBit x = s.bufBit x := rfl
@[simp] theorem State.finishSum_bitAt (x : Nat) : (s.finishSum r).bitAt x = s.bitAt x := rfl
@[simp] theorem State.finishSum_packedAt (x : Nat) : (s.finishSum r).packedAt x = s.packedAt x := rfl

end

section
variable (s : State) (c : Command)

@[simp] theorem State.issue_rom8 : (s.issue c).rom8 = s.rom8 := rfl
@[simp] theorem State.issue_rom9 : (s.issue c).rom9 = s.rom9 := rfl
@[simp] theorem State.issue_romC1 : (s.issue c).romC1 = s.romC1 := rfl
@[simp] theorem State.issue_romC2 : (s.issue c).romC2 = s.romC2 := rfl
@[simp] theorem State.issue_rom32 : (s.issue c).rom32 = s.rom32 := rfl
@[simp] theorem State.issue_acc : (s.issue c).acc = s.acc := rfl
@[simp] theorem State.issue_sum : (s.issue c).sum = s.sum := rfl
@[simp] theorem State.issue_idx : (s.issue c).idx = s.idx := rfl
@[simp] theorem State.issue_command : (s.issue c).command = some c := rfl
@[simp] theorem State.issue_response : (s.issue c).response = s.response := rfl
@[simp] theorem State.issue_buf : (s.issue c).buf = s.buf := rfl
@[simp] theorem State.issue_bits : (s.issue c).bits = s.bits := rfl
@[simp] theorem State.issue_freeCount : (s.issue c).freeCount = s.freeCount := rfl
@[simp] theorem State.issue_bufByte (x : Nat) : (s.issue c).bufByte x = s.bufByte x := rfl
@[simp] theorem State.issue_bufBit (x : Nat) : (s.issue c).bufBit x = s.bufBit x := rfl
@[simp] theorem State.issue_bitAt (x : Nat) : (s.issue c).bitAt x = s.bitAt x := rfl
@[simp] theorem State.issue_packedAt (x : Nat) : (s.issue c).packedAt x = s.packedAt x := rfl

end

section
variable (s : State)

@[simp] theorem State.afterReset_rom8 : s.afterReset.rom8 = s.rom8 := rfl
@[simp] theorem State.afterReset_rom9 : s.afterReset.rom9 = s.rom9 := rfl
@[simp] theorem State.afterReset_romC1 : s.afterReset.romC1 = s.romC1 := rfl
@[simp] theorem State.afterReset_romC2 : s.afterReset.romC2 = s.romC2 := rfl
@[simp] theorem State.afterReset_rom32 : s.afterReset.rom32 = s.rom32 := rfl
@[simp] theorem State.afterReset_acc : s.afterReset.acc = 0 := rfl
@[simp] theorem State.afterReset_sum : s.afterReset.sum = 0 := rfl
@[simp] theorem State.afterReset_idx : s.afterReset.idx = 0 := rfl
@[simp] theorem State.afterReset_command : s.afterReset.command = none := rfl
@[simp] theorem State.afterReset_response : s.afterReset.response = none := rfl
@[simp] theorem State.afterReset_buf : s.afterReset.buf = s.buf := rfl
@[simp] theorem State.afterReset_bits : s.afterReset.bits = s.bits := rfl
@[simp] theorem State.afterReset_freeCount : s.afterReset.freeCount = s.freeCount := rfl
@[simp] theorem State.afterReset_bufByte (x : Nat) : s.afterReset.bufByte x = s.bufByte x := rfl
@[simp] theorem State.afterReset_bufBit (x : Nat) : s.afterReset.bufBit x = s.bufBit x := rfl
@[simp] theorem State.afterReset_bitAt (x : Nat) : s.afterReset.bitAt x = s.bitAt x := rfl
@[simp] theorem State.afterReset_packedAt (x : Nat) : s.afterReset.packedAt x = s.packedAt x := rfl

/-- Right after the first reset a second one changes nothing. -/
@[simp] theorem State.reset_afterReset : State.reset.afterReset = State.reset := rfl

end

section
variable (s : State) (a : Nat) (v : Byte)

@[simp] theorem State.callerWriteByte_rom8 : (s.callerWriteByte a v).rom8 = s.rom8 := rfl
@[simp] theorem State.callerWriteByte_rom9 : (s.callerWriteByte a v).rom9 = s.rom9 := rfl
@[simp] theorem State.callerWriteByte_romC1 : (s.callerWriteByte a v).romC1 = s.romC1 := rfl
@[simp] theorem State.callerWriteByte_romC2 : (s.callerWriteByte a v).romC2 = s.romC2 := rfl
@[simp] theorem State.callerWriteByte_rom32 : (s.callerWriteByte a v).rom32 = s.rom32 := rfl
@[simp] theorem State.callerWriteByte_acc : (s.callerWriteByte a v).acc = s.acc := rfl
@[simp] theorem State.callerWriteByte_sum : (s.callerWriteByte a v).sum = s.sum := rfl
@[simp] theorem State.callerWriteByte_idx : (s.callerWriteByte a v).idx = s.idx := rfl
@[simp] theorem State.callerWriteByte_command : (s.callerWriteByte a v).command = s.command := rfl
@[simp] theorem State.callerWriteByte_response : (s.callerWriteByte a v).response = s.response := rfl
@[simp] theorem State.callerWriteByte_buf : (s.callerWriteByte a v).buf = writeCell unlistedByte s.buf a v := rfl
@[simp] theorem State.callerWriteByte_bits : (s.callerWriteByte a v).bits = s.bits := rfl
@[simp] theorem State.callerWriteByte_freeCount : (s.callerWriteByte a v).freeCount = s.freeCount := rfl
@[simp] theorem State.callerWriteByte_bitAt (x : Nat) : (s.callerWriteByte a v).bitAt x = s.bitAt x := rfl
@[simp] theorem State.callerWriteByte_packedAt (x : Nat) : (s.callerWriteByte a v).packedAt x = s.packedAt x := rfl

end

section
variable (s : State) (k : Nat) (v : Bool)

@[simp] theorem State.callerSetBit_rom8 : (s.callerSetBit k v).rom8 = s.rom8 := rfl
@[simp] theorem State.callerSetBit_rom9 : (s.callerSetBit k v).rom9 = s.rom9 := rfl
@[simp] theorem State.callerSetBit_romC1 : (s.callerSetBit k v).romC1 = s.romC1 := rfl
@[simp] theorem State.callerSetBit_romC2 : (s.callerSetBit k v).romC2 = s.romC2 := rfl
@[simp] theorem State.callerSetBit_rom32 : (s.callerSetBit k v).rom32 = s.rom32 := rfl
@[simp] theorem State.callerSetBit_acc : (s.callerSetBit k v).acc = s.acc := rfl
@[simp] theorem State.callerSetBit_sum : (s.callerSetBit k v).sum = s.sum := rfl
@[simp] theorem State.callerSetBit_idx : (s.callerSetBit k v).idx = s.idx := rfl
@[simp] theorem State.callerSetBit_command : (s.callerSetBit k v).command = s.command := rfl
@[simp] theorem State.callerSetBit_response : (s.callerSetBit k v).response = s.response := rfl
@[simp] theorem State.callerSetBit_buf : (s.callerSetBit k v).buf = s.buf := rfl
@[simp] theorem State.callerSetBit_bits : (s.callerSetBit k v).bits = writeCell unlistedBit s.bits k v := rfl
@[simp] theorem State.callerSetBit_freeCount : (s.callerSetBit k v).freeCount = s.freeCount := rfl
@[simp] theorem State.callerSetBit_bufByte (x : Nat) : (s.callerSetBit k v).bufByte x = s.bufByte x := rfl
@[simp] theorem State.callerSetBit_bufBit (x : Nat) : (s.callerSetBit k v).bufBit x = s.bufBit x := rfl

end

section
variable (s : State) (nbits w : Nat)

@[simp] theorem State.withFetchWord_rom8 : (s.withFetchWord nbits w).rom8 = s.rom8 := rfl
@[simp] theorem State.withFetchWord_rom9 : (s.withFetchWord nbits w).rom9 = s.rom9 := rfl
@[simp] theorem State.withFetchWord_romC1 : (s.withFetchWord nbits w).romC1 = s.romC1 := rfl
@[simp] theorem State.withFetchWord_romC2 : (s.withFetchWord nbits w).romC2 = s.romC2 := rfl
@[simp] theorem State.withFetchWord_rom32 : (s.withFetchWord nbits w).rom32 = s.rom32 := rfl
@[simp] theorem State.withFetchWord_acc : (s.withFetchWord nbits w).acc = s.acc := rfl
@[simp] theorem State.withFetchWord_sum : (s.withFetchWord nbits w).sum = s.sum := rfl
@[simp] theorem State.withFetchWord_idx : (s.withFetchWord nbits w).idx = s.idx := rfl
@[simp] theorem State.withFetchWord_command : (s.withFetchWord nbits w).command = commandOfTableWord nbits w := rfl
@[simp] theorem State.withFetchWord_response : (s.withFetchWord nbits w).response = s.response := rfl
@[simp] theorem State.withFetchWord_buf : (s.withFetchWord nbits w).buf = s.buf := rfl
@[simp] theorem State.withFetchWord_bits : (s.withFetchWord nbits w).bits = s.bits := rfl
@[simp] theorem State.withFetchWord_freeCount : (s.withFetchWord nbits w).freeCount = s.freeCount := rfl
@[simp] theorem State.withFetchWord_bufByte (x : Nat) : (s.withFetchWord nbits w).bufByte x = s.bufByte x := rfl
@[simp] theorem State.withFetchWord_bufBit (x : Nat) : (s.withFetchWord nbits w).bufBit x = s.bufBit x := rfl
@[simp] theorem State.withFetchWord_bitAt (x : Nat) : (s.withFetchWord nbits w).bitAt x = s.bitAt x := rfl
@[simp] theorem State.withFetchWord_packedAt (x : Nat) : (s.withFetchWord nbits w).packedAt x = s.packedAt x := rfl

end

end Sys2Proof.Machine
end

