-- ==== Sys2Proof/Laws/Memory.lean ====
section
/-!
SUPPORT. The laws of the canonical store: a read after a write, and every write keeps the canonical form.
-/

namespace Sys2Proof.Machine

variable {α : Type} [DecidableEq α] {d : α}

omit [DecidableEq α] in
theorem readCell_of_all_greater {m : List (Nat × α)} {a : Nat} (h : ∀ c ∈ m, a < c.1) : readCell d m a = d := by
  induction m with
  | nil => rfl
  | cons c m ih =>
    obtain ⟨b, w⟩ := c
    have hb : a < b := h (b, w) (by simp)
    have : a ≠ b := by omega
    simp only [readCell, this, if_false]
    exact ih fun c hc => h c (by simp [hc])

/-- A read at another address does not see the write, whatever the store. -/
theorem readCell_writeCell_other {m : List (Nat × α)} {a x : Nat} (v : α) (hx : x ≠ a) :
    readCell d (writeCell d m a v) x = readCell d m x := by
  induction m with
  | nil => by_cases hv : v = d <;> simp [writeCell, readCell, hv, hx]
  | cons c m ih =>
    obtain ⟨b, w⟩ := c
    simp only [writeCell]
    split
    · split <;> simp [readCell, hx]
    · split
      · subst_vars
        split <;> simp [readCell, hx]
      · simp only [readCell, ih]

/-- A read at the address written gives the value written, in a store in canonical form. -/
theorem readCell_writeCell_same {m : List (Nat × α)} (hm : Memory.wf d m) (a : Nat) (v : α) :
    readCell d (writeCell d m a v) a = v := by
  induction m with
  | nil => by_cases hv : v = d <;> simp [writeCell, readCell, hv]
  | cons c m ih =>
    obtain ⟨b, w⟩ := c
    obtain ⟨hs, hd⟩ := hm
    rw [List.pairwise_cons] at hs
    simp only [writeCell]
    split
    · rename_i hab
      split
      · rename_i hv
        rw [readCell_of_all_greater, hv]
        intro c hc
        rcases List.mem_cons.1 hc with rfl | hc
        · exact hab
        · exact Nat.lt_trans hab (hs.1 c hc)
      · simp [readCell]
    · split
      · rename_i hab
        subst hab
        split
        · rename_i hv
          rw [readCell_of_all_greater hs.1, hv]
        · simp [readCell]
      · rename_i hab
        simp only [readCell, hab, if_false]
        exact ih ⟨hs.2, fun c hc => hd c (List.mem_cons_of_mem _ hc)⟩

theorem mem_writeCell {m : List (Nat × α)} {a : Nat} {v : α} {c : Nat × α} (hc : c ∈ writeCell d m a v) :
    c ∈ m ∨ (c = (a, v) ∧ v ≠ d) := by
  induction m with
  | nil =>
    by_cases hv : v = d
    · simp [writeCell, hv] at hc
    · simp [writeCell, hv] at hc
      exact .inr ⟨hc, hv⟩
  | cons e m ih =>
    obtain ⟨b, w⟩ := e
    simp only [writeCell] at hc
    split at hc
    · split at hc
      · exact .inl hc
      · rename_i hv
        rcases List.mem_cons.1 hc with rfl | hc
        · exact .inr ⟨rfl, hv⟩
        · exact .inl hc
    · split at hc
      · split at hc
        · exact .inl (List.mem_cons_of_mem _ hc)
        · rename_i hv
          rcases List.mem_cons.1 hc with rfl | hc
          · exact .inr ⟨rfl, hv⟩
          · exact .inl (List.mem_cons_of_mem _ hc)
      · rcases List.mem_cons.1 hc with rfl | hc
        · exact .inl (by simp)
        · rcases ih hc with h | h
          · exact .inl (List.mem_cons_of_mem _ h)
          · exact .inr h

/-- Every write keeps the canonical form. -/
theorem writeCell_wf {m : List (Nat × α)} (hm : Memory.wf d m) (a : Nat) (v : α) :
    Memory.wf d (writeCell d m a v) := by
  refine ⟨?_, fun c hc => ?_⟩
  · have hs := hm.1
    clear hm
    induction m with
    | nil => by_cases hv : v = d <;> simp [writeCell, hv]
    | cons e m ih =>
      obtain ⟨b, w⟩ := e
      have hb := List.pairwise_cons.1 hs
      simp only [writeCell]
      split
      · rename_i hab
        split
        · exact hs
        · refine List.pairwise_cons.2 ⟨fun c hc => ?_, hs⟩
          rcases List.mem_cons.1 hc with rfl | hc
          · exact hab
          · exact Nat.lt_trans hab (hb.1 c hc)
      · split
        · rename_i hab
          subst hab
          split
          · exact hb.2
          · exact List.pairwise_cons.2 ⟨hb.1, hb.2⟩
        · refine List.pairwise_cons.2 ⟨fun c hc => ?_, ih hb.2⟩
          rcases mem_writeCell hc with hc | ⟨rfl, _⟩
          · exact hb.1 c hc
          · simp only; omega
  · rcases mem_writeCell hc with hc | ⟨rfl, hv⟩
    · exact hm.2 c hc
    · exact hv

/-! The engine's own store of bytes, and the caller's writes. -/

@[simp] theorem State.setByte_bufByte_other (s : State) {a x : Nat} (v : Byte) (hx : x ≠ a) :
    (s.setByte a v).bufByte x = s.bufByte x :=
  readCell_writeCell_other v hx

theorem State.setByte_bufByte_same {s : State} (hs : Memory.wf unlistedByte s.buf) (a : Nat) (v : Byte) :
    (s.setByte a v).bufByte a = v :=
  readCell_writeCell_same hs a v

theorem State.setByte_wf {s : State} (hs : Memory.wf unlistedByte s.buf) (a : Nat) (v : Byte) :
    Memory.wf unlistedByte (s.setByte a v).buf :=
  writeCell_wf hs a v

theorem State.callerWriteByte_wf {s : State} (hs : Memory.wf unlistedByte s.buf) (a : Nat) (v : Byte) :
    Memory.wf unlistedByte (s.callerWriteByte a v).buf :=
  writeCell_wf hs a v

theorem State.callerSetBit_wf {s : State} (hs : Memory.wf unlistedBit s.bits) (k : Nat) (v : Bool) :
    Memory.wf unlistedBit (s.callerSetBit k v).bits :=
  writeCell_wf hs k v

theorem State.reset_buf_wf : Memory.wf unlistedByte State.reset.buf :=
  ⟨.nil, by simp [State.reset]⟩

theorem State.reset_bits_wf : Memory.wf unlistedBit State.reset.bits :=
  ⟨.nil, by simp [State.reset]⟩

end Sys2Proof.Machine
end

