-- ==== Sys2Proof/Laws/Operands.lean ====
section
/-!
SUPPORT. What the checks, the guarded reads and writes, and the footers of an operation can do, each said once.
-/

namespace Sys2Proof.Machine

open Sys2Proof.Safety

/-! Ending an operation: every path of a meaning is one of these three. -/

theorem guarded_some {k : ErrorKind} {failed : Option ErrorKind} (h : failed = some k)
    (op : State → Except Fault State) (s : State) : guarded failed op s = .next (s.raise k) := by
  subst h; rfl

theorem guarded_ok {failed : Option ErrorKind} (h : failed = none) {op : State → Except Fault State} {s t : State}
    (ht : op s = .ok t) : guarded failed op s = .next t := by
  subst h; simp [guarded, ht]

/-- What a meaning can answer: a failed check raises, and otherwise the operation decides. -/
theorem guarded_next {failed : Option ErrorKind} {op : State → Except Fault State} {s t : State}
    (h : guarded failed op s = .next t) :
    (∃ k, failed = some k ∧ t = s.raise k) ∨ (failed = none ∧ op s = .ok t) := by
  cases failed with
  | some k =>
    simp only [guarded, Host.Outcome.next.injEq] at h
    exact .inl ⟨k, rfl, h.symm⟩
  | none =>
    simp only [guarded] at h
    split at h <;> simp_all

/-! The checks (60_exceptions.md R111 to R114, R117). -/

theorem inputMissing_iff {d : Descriptor} : inputMissing d = true ↔ Absent d := by
  simp [inputMissing, Absent]

theorem usable_iff {d : Descriptor} : Usable d ↔ ¬ Absent d := by
  simp [Usable, Absent, Nat.pos_iff_ne_zero]

theorem inputMissing_eq_false {d : Descriptor} (h : Usable d) : inputMissing d = false := by
  rw [usable_iff, ← inputMissing_iff] at h
  simpa using h

theorem checkBits_absent {bits : Descriptor} (h : Absent bits) : checkBits bits = some .missingInput := by
  simp [checkBits, inputMissing_iff.2 h]

theorem checkBits_short {bits : Descriptor} (h : Usable bits) (hl : bits.size < 72) :
    checkBits bits = some .boundsFault := by
  simp [checkBits, inputMissing_eq_false h, ck5Bits, hl]

theorem checkBits_ok {bits : Descriptor} (h : Usable bits) (hl : 72 ≤ bits.size) : checkBits bits = none := by
  simp [checkBits, inputMissing_eq_false h, ck5Bits, Nat.not_lt.2 hl]

theorem checkBytes_absent {w len : Nat} {buf : Descriptor} (h : Absent buf) :
    checkBytes w buf len = some .missingInput := by
  simp [checkBytes, inputMissing_iff.2 h]

theorem checkBytes_footer {w len : Nat} {buf : Descriptor} (h : Usable buf) (hw : len < w) :
    checkBytes w buf len = some .rangeViolation := by
  simp [checkBytes, inputMissing_eq_false h, hw]

theorem checkBytes_long {w len : Nat} {buf : Descriptor} (h : Usable buf) (hw : w ≤ len) (hl : buf.size < len) :
    checkBytes w buf len = some .boundsFault := by
  simp [checkBytes, inputMissing_eq_false h, Nat.not_lt.2 hw, hl]

theorem checkBytes_ok {w len : Nat} {buf : Descriptor} (h : Usable buf) (hw : w ≤ len) (hl : len ≤ buf.size) :
    checkBytes w buf len = none := by
  simp [checkBytes, inputMissing_eq_false h, Nat.not_lt.2 hw, Nat.not_lt.2 hl]

theorem checkBitCount_absent {n : Nat} {buf : Descriptor} (h : Absent buf) :
    checkBitCount buf n = some .missingInput := by
  simp [checkBitCount, inputMissing_iff.2 h]

theorem checkBitCount_long {n : Nat} {buf : Descriptor} (h : Usable buf) (hl : 8 * buf.size < n) :
    checkBitCount buf n = some .boundsFault := by
  simp [checkBitCount, inputMissing_eq_false h, hl]

theorem checkBitCount_ok {n : Nat} {buf : Descriptor} (h : Usable buf) (hl : n ≤ 8 * buf.size) :
    checkBitCount buf n = none := by
  simp [checkBitCount, inputMissing_eq_false h, Nat.not_lt.2 hl]

theorem checkCrc9_absent {n9 n : Nat} {buf : Descriptor} (h : Absent buf) :
    checkCrc9 n9 buf n = some .missingInput := by
  simp [checkCrc9, checkBitCount_absent h]

theorem checkCrc9_long {n9 n : Nat} {buf : Descriptor} (h : Usable buf) (hl : 8 * buf.size < n ∨ n9 + 9 < n) :
    checkCrc9 n9 buf n = some .boundsFault := by
  by_cases hb : 8 * buf.size < n
  · simp [checkCrc9, checkBitCount_long h hb]
  · simp [checkCrc9, checkBitCount_ok h (Nat.not_lt.1 hb), hl.resolve_left hb]

theorem checkCrc9_ok {n9 n : Nat} {buf : Descriptor} (h : Usable buf) (hl : n ≤ 8 * buf.size) (h9 : n ≤ n9 + 9) :
    checkCrc9 n9 buf n = none := by
  simp [checkCrc9, checkBitCount_ok h hl, Nat.not_lt.2 h9]

/-! Reads inside the descriptor (20_memory.md R31, 40_bit_packer_and_roms.md R60, R61, R63). -/

theorem readByte_ok {buf : Descriptor} {a : Nat} (h : a < buf.size) (s : State) :
    readByte buf a s = .ok (s.bufByte a) := by
  simp [readByte, h]

theorem readBit_ok {buf : Descriptor} {i : Nat} (h : i < 8 * buf.size) (s : State) :
    readBit buf i s = .ok (s.bufBit i) := by
  have : i / 8 < buf.size := by omega
  simp [readBit, readByte_ok this, State.bufBit]

theorem pack8_ok {bits : Descriptor} {k : Nat} (h : k + 7 < bits.size) (s : State) :
    pack8 bits k s = .ok (s.packedAt k) := by
  simp [pack8, h]

theorem readRom9_ok {s : State} {j : Nat} (h : j < s.rom9.length) : readRom9 j s = .ok (s.rom9.getD j 0) := by
  simp [readRom9, h]

theorem readBytes_ok {buf : Descriptor} (s : State) {a n : Nat} (h : a + n ≤ buf.size) :
    readBytes buf s a n = .ok ((List.range' a n).map s.bufByte) := by
  induction n generalizing a with
  | zero => rfl
  | succ n ih =>
    have ha : a < buf.size := by omega
    have := ih (a := a + 1) (by omega)
    simp [readBytes, readByte_ok ha, this, List.range'_succ]

theorem writeByte_ok {buf : Descriptor} {a : Nat} (h : a < buf.size) (v : Byte) (s : State) :
    writeByte buf a v s = .ok (s.setByte a v) := by
  simp [writeByte, h]

/-- A footer inside the buffer is stored byte after byte (20_memory.md R40). -/
theorem writeBytes_pair {buf : Descriptor} {a : Nat} (h : a + 2 ≤ buf.size) (x y : Byte) (s : State) :
    writeBytes buf a [x, y] s = .ok ((s.setByte a x).setByte (a + 1) y) := by
  have h0 : a < buf.size := by omega
  have h1 : a + 1 < buf.size := by omega
  simp [writeBytes, writeByte_ok h0, writeByte_ok h1]

theorem writeBytes_quad {buf : Descriptor} {a : Nat} (h : a + 4 ≤ buf.size) (x y z w : Byte) (s : State) :
    writeBytes buf a [x, y, z, w] s =
      .ok ((((s.setByte a x).setByte (a + 1) y).setByte (a + 1 + 1) z).setByte (a + 1 + 1 + 1) w) := by
  have h0 : a < buf.size := by omega
  have h1 : a + 1 < buf.size := by omega
  have h2 : a + 1 + 1 < buf.size := by omega
  have h3 : a + 1 + 1 + 1 < buf.size := by omega
  simp [writeBytes, writeByte_ok h0, writeByte_ok h1, writeByte_ok h2, writeByte_ok h3]

/-! The loop of an operation (00_scope.md R8, 10_state.md R15). -/

/-- A body that only moves ACC from `f i` to `f (i+1)` runs `n` times and leaves the loop with ACC at `f n` and IDX at
its bound. -/
theorem loopFromZero_acc {body : Nat → State → Except Fault State} {n : Nat} (hn : n < 2 ^ 32) {s : State}
    (f : Nat → BitVec 32)
    (hbody : ∀ i, i < n → ∀ x, body i { s with acc := f i, idx := x } = .ok { s with acc := f (i + 1), idx := x }) :
    loopFromZero body n (s.setAcc (f 0)) = .ok { s with acc := f n, idx := BitVec.ofNat 32 n } := by
  have key : ∀ m, m ≤ n →
      loop body m { s with acc := f 0, idx := 0 } = .ok { s with acc := f m, idx := BitVec.ofNat 32 m } := by
    intro m
    induction m with
    | zero => intro _; rfl
    | succ m ih =>
      intro hm
      have hidx : (BitVec.ofNat 32 m).toNat = m := by
        rw [BitVec.toNat_ofNat]; exact Nat.mod_eq_of_lt (by omega)
      simp only [loop, ih (by omega), hidx, hbody m (by omega)]
      simp [State.setIdx, BitVec.ofNat_add]
  exact key n (Nat.le_refl n)

/-- The same for a body that moves SUM. -/
theorem loopFromZero_sum {body : Nat → State → Except Fault State} {n : Nat} (hn : n < 2 ^ 32) {s : State}
    (f : Nat → BitVec 12)
    (hbody : ∀ i, i < n → ∀ x, body i { s with sum := f i, idx := x } = .ok { s with sum := f (i + 1), idx := x }) :
    loopFromZero body n (s.setSum (f 0)) = .ok { s with sum := f n, idx := BitVec.ofNat 32 n } := by
  have key : ∀ m, m ≤ n →
      loop body m { s with sum := f 0, idx := 0 } = .ok { s with sum := f m, idx := BitVec.ofNat 32 m } := by
    intro m
    induction m with
    | zero => intro _; rfl
    | succ m ih =>
      intro hm
      have hidx : (BitVec.ofNat 32 m).toNat = m := by
        rw [BitVec.toNat_ofNat]; exact Nat.mod_eq_of_lt (by omega)
      simp only [loop, ih (by omega), hidx, hbody m (by omega)]
      simp [State.setIdx, BitVec.ofNat_add]
  exact key n (Nat.le_refl n)

end Sys2Proof.Machine
end

