-- ==== Sys2Proof/Laws/Cores.lean ====
section
/-!
SUPPORT. What each family's computation does when its extent lies inside the descriptor: it moves the working registers
and nothing else, and the checksum it leaves is the one written over lists in Safety.lean.
-/

namespace Sys2Proof.Machine

open Sys2Proof.Safety

/-! A checksum over one more byte, bit or position is one more step on the checksum so far. -/

theorem bytesOf_succ (s : State) (n : Nat) : bytesOf s (n + 1) = bytesOf s n ++ [s.bufByte n] := by
  simp [bytesOf, List.range_succ]

theorem bitsOf_succ (s : State) (n : Nat) : bitsOf s (n + 1) = bitsOf s n ++ [s.bufBit n] := by
  simp [bitsOf, List.range_succ]

theorem crc9Positions_succ (s : State) (n : Nat) :
    crc9Positions s (n + 1) =
      crc9Positions s n ++ if s.bufBit n && (decide (n < 7) || decide (15 < n)) then [n] else [] := by
  simp only [crc9Positions, List.range_succ, List.filter_append, List.filter_cons, List.filter_nil]

@[simp] theorem setWidth_roundtrip {n m : Nat} (h : n ≤ m) (v : BitVec n) : (v.setWidth m).setWidth n = v := by
  simp [h]

@[simp] theorem setAcc_acc_eq (s : State) (a : BitVec 32) (x : BitVec 32) (v : BitVec 32) :
    State.setAcc { s with acc := a, idx := x } v = { s with acc := v, idx := x } := rfl

/-! 5-bit modular checksum (R70). -/

theorem ck5Sum_eq {bits : Descriptor} (h : 72 ≤ bits.size) (s : State) :
    ck5Sum bits s =
      .ok { s with sum := BitVec.ofNat 12 ((groupsOf s).map BitVec.toNat).sum, idx := 9 } := by
  let f : Nat → BitVec 12 := fun n =>
    BitVec.ofNat 12 (((List.range n).map fun k => s.packedAt (8 * k)).map BitVec.toNat).sum
  have := loopFromZero_sum (body := ck5Step bits) (n := 9) (by decide) (s := s) f (by
    intro i hi x
    have hk : 8 * i + 7 < bits.size := by omega
    rw [ck5Step, pack8_ok hk]
    simp [f, List.range_succ, BitVec.ofNat_add, State.setSum, State.packedAt, State.bitAt])
  exact this

theorem groupsOf_sum_le (s : State) : ((groupsOf s).map BitVec.toNat).sum ≤ 2295 := by
  have h := fun k => (s.packedAt k).isLt
  simp only [groupsOf, List.range, List.range.loop, List.map, List.sum_cons, List.sum_nil]
  have h0 := h (8 * 0); have h1 := h (8 * 1); have h2 := h (8 * 2); have h3 := h (8 * 3); have h4 := h (8 * 4)
  have h5 := h (8 * 5); have h6 := h (8 * 6); have h7 := h (8 * 7); have h8 := h (8 * 8)
  omega

/-- The 12-bit remainder is the natural remainder: the sum never wraps (10_state.md R14). -/
theorem ck5_mod_eq (s : State) :
    (BitVec.ofNat 12 ((groupsOf s).map BitVec.toNat).sum % ck5Modulus).setWidth 32 =
      BitVec.ofNat 32 (modularSum (groupsOf s)) := by
  have h := groupsOf_sum_le s
  apply BitVec.eq_of_toNat_eq
  have h31 : ck5Modulus.toNat = 31 := rfl
  simp only [BitVec.toNat_setWidth, BitVec.toNat_umod, BitVec.toNat_ofNat, modularSum, h31]
  omega

/-! 8-bit CRC (R75). -/

theorem crc8Core_eq {buf : Descriptor} {len : Nat} (hl : len ≤ buf.size) (hn : len < 2 ^ 32) (s : State) :
    crc8Core buf len s =
      .ok { s with acc := (crc8Of s.rom8 (bytesOf s len)).setWidth 32, idx := BitVec.ofNat 32 len } := by
  refine loopFromZero_acc hn (fun n => (crc8Of s.rom8 (bytesOf s n)).setWidth 32) fun i hi x => ?_
  rw [crc8Step, readByte_ok (by omega)]
  simp [State.acc8, crc8Of, bytesOf_succ, State.setAcc, State.bufByte]

/-! 9-bit CRC (R80, R81). -/

/-- The exclusive or over the positions taken so far. -/
def crc9Partial (s : State) (n : Nat) : BitVec 9 :=
  (crc9Positions s n).foldl (fun a i => a ^^^ s.rom9.getD (if i < 7 then i else i - 9) 0) 0

theorem crc9Loop_eq {buf : Descriptor} {n : Nat} {s : State} (hl : n ≤ 8 * buf.size) (hn : n < 2 ^ 32)
    (h9 : n ≤ s.rom9.length + 9) (h7 : 7 ≤ s.rom9.length) :
    loopFromZero (crc9Step buf) n (s.setAcc 0) =
      .ok { s with acc := (crc9Partial s n).setWidth 32, idx := BitVec.ofNat 32 n } := by
  refine loopFromZero_acc hn (fun n => (crc9Partial s n).setWidth 32) fun i hi x => ?_
  rw [crc9Step, readBit_ok (by omega)]
  have hb : State.bufBit { s with acc := (crc9Partial s i).setWidth 32, idx := x } i = s.bufBit i := rfl
  rw [hb]
  cases hbit : s.bufBit i with
  | false => simp [crc9Partial, crc9Positions_succ, hbit]
  | true =>
    by_cases h1 : i < 7
    · have hj : i < s.rom9.length := by omega
      simp [crc9Entry, crc9WindowLow, h1, crc9Xor, readRom9_ok, hj, crc9Partial, crc9Positions_succ, hbit,
        State.acc9, State.setAcc]
    · by_cases h2 : 15 < i
      · have hj : i - 9 < s.rom9.length := by omega
        simp [crc9Entry, crc9WindowLow, crc9WindowHigh, crc9Offset, h1, h2, crc9Xor, readRom9_ok, hj, crc9Partial,
          crc9Positions_succ, hbit, State.acc9, State.setAcc]
      · simp [crc9Entry, crc9WindowLow, crc9WindowHigh, h1, h2, crc9Partial, crc9Positions_succ, hbit]

theorem crc9Core_eq {buf : Descriptor} {n : Nat} {s : State} (hl : n ≤ 8 * buf.size) (hn : n < 2 ^ 32)
    (h9 : n ≤ s.rom9.length + 9) (h7 : 7 ≤ s.rom9.length) :
    crc9Core buf n s =
      .ok { s with acc := (crc9Of s.rom9 (crc9Positions s n)).setWidth 32, idx := BitVec.ofNat 32 n } := by
  have hc (v : BitVec 9) : v ^^^ crc9XorOut = ~~~ v := by
    simp only [crc9XorOut]; rw [show (0x1FF : BitVec 9) = BitVec.allOnes 9 from rfl, BitVec.xor_allOnes]
  rw [crc9Core, crc9Loop_eq hl hn h9 h7]
  simp only [setAcc_acc_eq, State.acc9, hc, setWidth_roundtrip (by decide : 9 ≤ 32)]
  rfl

/-! The two CCITT variants (R85, R89). -/

theorem ccitt1_step_eq (a : Half) (rom : Vector (BitVec 16) 256) (b : Byte) :
    (low a).setWidth 16 ^^^ romRead rom (high a ^^^ b) =
      (a &&& 0x00FF) ^^^ romRead rom (BitVec.extractLsb' 8 8 a ^^^ b) := by
  have h1 : (low a).setWidth 16 = a &&& 0x00FF := by
    unfold low
    ext i hi
    have : i < 16 := hi
    interval_cases i <;> simp
  have h2 : high a = BitVec.extractLsb' 8 8 a := by
    unfold high
    ext i
    simp
  rw [h1, h2]

theorem ccitt2_step_eq (a : Half) (rom : Vector (BitVec 16) 256) (b : Byte) :
    ((high a).setWidth 16 <<< 8) ^^^ romRead rom (low a ^^^ b) =
      (a &&& 0xFF00) ^^^ romRead rom (BitVec.extractLsb' 0 8 a ^^^ b) := by
  have h1 : (high a).setWidth 16 <<< 8 = a &&& 0xFF00 := by
    unfold high
    ext i hi
    have : i < 16 := hi
    interval_cases i <;> simp
  have h2 : low a = BitVec.extractLsb' 0 8 a := by
    unfold low
    ext i
    simp
  rw [h1, h2]

theorem complement16_eq (s : State) (v : Half) (x : BitVec 32) :
    State.complement16 { s with acc := v.setWidth 32, idx := x } = { s with acc := (~~~ v).setWidth 32, idx := x } := by
  have : v ^^^ 0xFFFF = ~~~ v := by
    rw [show (0xFFFF : Half) = BitVec.allOnes 16 from rfl, BitVec.xor_allOnes]
  simp only [State.complement16, State.acc16, setAcc_acc_eq, setWidth_roundtrip (by decide : 16 ≤ 32), this]

theorem ccitt1Core_eq {buf : Descriptor} {len : Nat} (hl : len ≤ buf.size) (hn : len < 2 ^ 32) (s : State) :
    ccitt1Core buf len s =
      .ok { s with acc := (ccitt1Of s.romC1 (bytesOf s (len - 2))).setWidth 32, idx := BitVec.ofNat 32 (len - 2) } := by
  let f : Nat → Half := fun n =>
    (bytesOf s n).foldl (fun a b => (a &&& 0x00FF) ^^^ romRead s.romC1 (BitVec.extractLsb' 8 8 a ^^^ b)) 0xFFFF
  have := loopFromZero_acc (body := ccitt1Step buf) (n := len - 2) (by omega) (s := s) (fun n => (f n).setWidth 32) (by
    intro i hi x
    rw [ccitt1Step, readByte_ok (by omega)]
    simp [State.acc16, ccitt1_step_eq, f, bytesOf_succ, State.setAcc, State.bufByte])
  have h0 : s.setAcc (ccitt1Init.setWidth 32) = s.setAcc ((f 0).setWidth 32) := rfl
  rw [ccitt1Core, ccittWidth, h0, this]
  simp only [complement16_eq]
  rfl

theorem ccitt2Core_eq {buf : Descriptor} {len : Nat} (hl : len ≤ buf.size) (hn : len < 2 ^ 32) (s : State) :
    ccitt2Core buf len s =
      .ok { s with acc := (ccitt2Of s.romC2 (bytesOf s (len - 2))).setWidth 32, idx := BitVec.ofNat 32 (len - 2) } := by
  let f : Nat → Half := fun n =>
    (bytesOf s n).foldl (fun a b => (a &&& 0xFF00) ^^^ romRead s.romC2 (BitVec.extractLsb' 0 8 a ^^^ b)) 0x0000
  have := loopFromZero_acc (body := ccitt2Step buf) (n := len - 2) (by omega) (s := s) (fun n => (f n).setWidth 32) (by
    intro i hi x
    rw [ccitt2Step, readByte_ok (by omega)]
    simp [State.acc16, ccitt2_step_eq, f, bytesOf_succ, State.setAcc, State.bufByte])
  have h0 : s.setAcc (ccitt2Init.setWidth 32) = s.setAcc ((f 0).setWidth 32) := rfl
  rw [ccitt2Core, ccittWidth, h0, this]
  simp only [complement16_eq]
  rfl

/-! 32-bit CRC (R95). -/

theorem crc32Index_eq (a : Word) (b : Byte) : crc32Index a b = BitVec.extractLsb' 24 8 a ^^^ b := by
  unfold crc32Index
  ext i hi
  have : i < 32 := by omega
  simp [this]

theorem crc32Core_eq {buf : Descriptor} {len : Nat} (hl : len ≤ buf.size) (hn : len < 2 ^ 32) (s : State) :
    crc32Core buf len s =
      .ok { s with acc := crc32Of s.rom32 (bytesOf s (len - 4)), idx := BitVec.ofNat 32 (len - 4) } := by
  let f : Nat → Word := fun n =>
    (bytesOf s n).foldl (fun a b => romRead s.rom32 (BitVec.extractLsb' 24 8 a ^^^ b) ^^^ (a <<< 8)) 0
  have := loopFromZero_acc (body := crc32Step buf) (n := len - 4) (by omega) (s := s) f (by
    intro i hi x
    rw [crc32Step, readByte_ok (by omega)]
    simp [crc32Index_eq, f, bytesOf_succ, State.setAcc, State.bufByte])
  have h0 : s.setAcc crc32Init = s.setAcc (f 0) := rfl
  rw [crc32Core, crc32Width, h0, this]
  have hc (v : Word) : v ^^^ 0xFFFFFFFF = ~~~ v := by
    rw [show (0xFFFFFFFF : Word) = BitVec.allOnes 32 from rfl, BitVec.xor_allOnes]
  simp only [setAcc_acc_eq, hc]
  rfl

/-! The bit-serial generator (R100, R102). -/

theorem bitSerialShift_eq (a : Half) (b : Bool) :
    bitSerialShift a b = (a <<< 1) ^^^ (if b = a.msb then 0 else 0x1021) := by
  have hm : a.msb = a.getLsbD 15 := rfl
  rw [bitSerialShift, hm]
  cases b <;> cases a.getLsbD 15 <;> simp [bitSerialPoly]

theorem bitSerialCore_eq {buf : Descriptor} {n : Nat} (hl : n ≤ 8 * buf.size) (hn : n < 2 ^ 32) (s : State) :
    bitSerialCore buf n s =
      .ok { s with acc := (bitSerialOf (bitsOf s n)).setWidth 32, idx := BitVec.ofNat 32 n } := by
  refine loopFromZero_acc hn (fun n => (bitSerialOf (bitsOf s n)).setWidth 32) fun i hi x => ?_
  rw [bitSerialStep, readBit_ok (by omega)]
  have hb : State.bufBit { s with acc := (bitSerialOf (bitsOf s i)).setWidth 32, idx := x } i = s.bufBit i := rfl
  rw [hb]
  simp [bitSerialShift_eq, bitSerialOf, bitsOf_succ, State.setAcc]

end Sys2Proof.Machine
end

