-- ==== Sys2Proof/Laws/Operations.lean ====
section
/-!
SUPPORT. What each operation does after its checks, when its extent lies inside the descriptor: the exact state it ends in.
-/

namespace Sys2Proof.Safety

open Sys2Proof.Machine

/-- Frames compose. -/
theorem KeepsAllButAcc.trans {s t u : State} (h : KeepsAllButAcc s t) (g : KeepsAllButAcc t u) : KeepsAllButAcc s u :=
  ⟨⟨g.roms.rom8.trans h.roms.rom8, g.roms.rom9.trans h.roms.rom9, g.roms.romC1.trans h.roms.romC1,
    g.roms.romC2.trans h.roms.romC2, g.roms.rom32.trans h.roms.rom32⟩, g.command.trans h.command,
    fun k => (g.bits k).trans (h.bits k)⟩

end Sys2Proof.Safety

namespace Sys2Proof.Machine

open Sys2Proof.Safety

/-! What the updates an operation is made of leave unchanged; a chain of updates is taken apart with `trans`. -/

theorem State.finishAcc_keeps (s : State) (r : Response) : KeepsAllButAcc s (s.finishAcc r) :=
  ⟨⟨rfl, rfl, rfl, rfl, rfl⟩, rfl, fun _ => rfl⟩

theorem State.setByte_keeps (s : State) (a : Nat) (v : Byte) : KeepsAllButAcc s (s.setByte a v) :=
  ⟨⟨rfl, rfl, rfl, rfl, rfl⟩, rfl, fun _ => rfl⟩

theorem State.finishSum_keeps (s : State) (r : Response) : KeepsAllButSum s (s.finishSum r) :=
  ⟨⟨rfl, rfl, rfl, rfl, rfl⟩, rfl, fun _ => rfl, fun _ => rfl⟩

theorem high_eq (v : Half) : high v = BitVec.extractLsb' 8 8 v := by
  unfold high
  ext i
  simp

theorem low_eq (v : Half) : low v = BitVec.extractLsb' 0 8 v := by
  unfold low
  ext i
  simp

theorem byteOf_eq (v : Word) (k : Nat) : byteOf v k = BitVec.extractLsb' (8 * k) 8 v := by
  unfold byteOf
  ext i
  simp

/-- What ends an operation by reading a footer that lies inside the buffer. -/
theorem verifyFooter_ok {buf : Descriptor} {a : Nat} {footer : List Byte} (h : a + footer.length ≤ buf.size) (s : State) :
    verifyFooter buf a footer s =
      .ok (s.finishAcc (respVerdict (decide ((List.range' a footer.length).map s.bufByte = footer)))) := by
  simp only [verifyFooter, readBytes_ok s h, footerVerdict]

theorem ck5ComputeOp_eq {bits : Descriptor} (hl : 72 ≤ bits.size) (s : State) :
    ck5ComputeOp bits s = .ok (s.finishSum (respValue (BitVec.ofNat 32 (modularSum (groupsOf s))))) := by
  rw [ck5ComputeOp, ck5Sum_eq hl]
  simp only [ck5Reduce, ck5_mod_eq]
  rfl

theorem ck5VerifyOp_eq {bits : Descriptor} (hl : 72 ≤ bits.size) (expected : Word) (s : State) :
    ck5VerifyOp bits expected s =
      .ok (s.finishSum (respVerdict (decide (modularSum (groupsOf s) = expected.toNat)))) := by
  rw [ck5VerifyOp, ck5Sum_eq hl]
  simp only [ck5Reduce, checksumVerdict, ck5_mod_eq]
  have h31 : modularSum (groupsOf s) < 31 := Nat.mod_lt _ (by decide)
  have : BitVec.ofNat 32 (modularSum (groupsOf s)) = expected ↔ modularSum (groupsOf s) = expected.toNat := by
    constructor
    · rintro rfl; simp; omega
    · intro h; rw [h]; simp
  simp only [this]
  rfl

theorem crc8ComputeOp_eq {buf : Descriptor} {len : Nat} (hl : len ≤ buf.size) (hn : len < 2 ^ 32) (s : State) :
    crc8ComputeOp buf len s = .ok (s.finishAcc (respValue ((crc8Of s.rom8 (bytesOf s len)).setWidth 32))) := by
  rw [crc8ComputeOp, crc8Core_eq hl hn]
  simp only [State.acc8, setWidth_roundtrip (by decide : 8 ≤ 32)]
  rfl

theorem crc9ComputeOp_eq {buf : Descriptor} {n : Nat} {s : State} (hl : n ≤ 8 * buf.size) (hn : n < 2 ^ 32)
    (h9 : n ≤ s.rom9.length + 9) (h7 : 7 ≤ s.rom9.length) :
    crc9ComputeOp buf n s = .ok (s.finishAcc (respValue ((crc9Of s.rom9 (crc9Positions s n)).setWidth 32))) := by
  rw [crc9ComputeOp, crc9Core_eq hl hn h9 h7]
  simp only [State.acc9, setWidth_roundtrip (by decide : 9 ≤ 32)]
  rfl

theorem ccittsComputeOp_eq {buf : Descriptor} {n : Nat} (hl : n ≤ 8 * buf.size) (hn : n < 2 ^ 32) (s : State) :
    ccittsComputeOp buf n s = .ok (s.finishAcc (respValue ((bitSerialOf (bitsOf s n)).setWidth 32))) := by
  rw [ccittsComputeOp, bitSerialCore_eq hl hn]
  simp only [setWidth_roundtrip (by decide : 16 ≤ 32)]
  rfl

/-- The footer CCITT1 computes for the first `len` bytes (R85, R37). -/
def ccitt1FooterOf (s : State) (len : Nat) : List Byte := ccitt1Footer (ccitt1Of s.romC1 (bytesOf s (len - 2)))

/-- The footer CCITT2 computes for the first `len` bytes (R89, R37). -/
def ccitt2FooterOf (s : State) (len : Nat) : List Byte := ccitt2Footer (ccitt2Of s.romC2 (bytesOf s (len - 2)))

/-- The footer CRC32 computes for the first `len` bytes (R95, R37). -/
def crc32FooterOf (s : State) (len : Nat) : List Byte := crc32Footer (crc32Of s.rom32 (bytesOf s (len - 4)))

theorem ccitt1VerifyOp_eq {buf : Descriptor} {len : Nat} (h2 : 2 ≤ len) (hl : len ≤ buf.size) (hn : len < 2 ^ 32)
    (s : State) :
    ccitt1VerifyOp buf len s = .ok (s.finishAcc (respVerdict (decide
      ([s.bufByte (len - 2), s.bufByte (len - 1)] = ccitt1FooterOf s len)))) := by
  have e : len - 2 + 1 = len - 1 := by omega
  rw [ccitt1VerifyOp, ccitt1Core_eq hl hn]
  simp only [State.acc16, setWidth_roundtrip (by decide : 16 ≤ 32), ccittWidth]
  rw [verifyFooter_ok (by simp only [ccitt1Footer, List.length]; omega)]
  simp only [ccitt1Footer, List.length, List.range', List.map, e]
  rfl

theorem ccitt2VerifyOp_eq {buf : Descriptor} {len : Nat} (h2 : 2 ≤ len) (hl : len ≤ buf.size) (hn : len < 2 ^ 32)
    (s : State) :
    ccitt2VerifyOp buf len s = .ok (s.finishAcc (respVerdict (decide
      ([s.bufByte (len - 2), s.bufByte (len - 1)] = ccitt2FooterOf s len)))) := by
  have e : len - 2 + 1 = len - 1 := by omega
  rw [ccitt2VerifyOp, ccitt2Core_eq hl hn]
  simp only [State.acc16, setWidth_roundtrip (by decide : 16 ≤ 32), ccittWidth]
  rw [verifyFooter_ok (by simp only [ccitt2Footer, List.length]; omega)]
  simp only [ccitt2Footer, List.length, List.range', List.map, e]
  rfl

theorem crc32VerifyOp_eq {buf : Descriptor} {len : Nat} (h4 : 4 ≤ len) (hl : len ≤ buf.size) (hn : len < 2 ^ 32)
    (s : State) :
    crc32VerifyOp buf len s = .ok (s.finishAcc (respVerdict (decide
      ([s.bufByte (len - 4), s.bufByte (len - 3), s.bufByte (len - 2), s.bufByte (len - 1)] =
        crc32FooterOf s len)))) := by
  have e3 : len - 4 + 1 = len - 3 := by omega
  have e2 : len - 3 + 1 = len - 2 := by omega
  have e1 : len - 2 + 1 = len - 1 := by omega
  rw [crc32VerifyOp, crc32Core_eq hl hn]
  simp only [crc32Width]
  rw [verifyFooter_ok (by simp only [crc32Footer, List.length]; omega)]
  simp only [crc32Footer, List.length, List.range', List.map, e3, e2, e1]
  rfl

theorem ccitt1EmbedOp_eq {buf : Descriptor} {len : Nat} (h2 : 2 ≤ len) (hl : len ≤ buf.size) (hn : len < 2 ^ 32)
    (s : State) :
    ccitt1EmbedOp buf len s =
      .ok (((s.setByte (len - 2) (high (ccitt1Of s.romC1 (bytesOf s (len - 2))))).setByte (len - 1)
        (low (ccitt1Of s.romC1 (bytesOf s (len - 2))))).finishAcc respDone) := by
  have e : len - 2 + 1 = len - 1 := by omega
  rw [ccitt1EmbedOp, ccitt1Core_eq hl hn]
  simp only [embedFooter, State.acc16, setWidth_roundtrip (by decide : 16 ≤ 32), ccitt1Footer, ccittWidth]
  rw [writeBytes_pair (by omega), e]
  rfl

theorem ccitt2EmbedOp_eq {buf : Descriptor} {len : Nat} (h2 : 2 ≤ len) (hl : len ≤ buf.size) (hn : len < 2 ^ 32)
    (s : State) :
    ccitt2EmbedOp buf len s =
      .ok (((s.setByte (len - 2) (low (ccitt2Of s.romC2 (bytesOf s (len - 2))))).setByte (len - 1)
        (high (ccitt2Of s.romC2 (bytesOf s (len - 2))))).finishAcc respDone) := by
  have e : len - 2 + 1 = len - 1 := by omega
  rw [ccitt2EmbedOp, ccitt2Core_eq hl hn]
  simp only [embedFooter, State.acc16, setWidth_roundtrip (by decide : 16 ≤ 32), ccitt2Footer, ccittWidth]
  rw [writeBytes_pair (by omega), e]
  rfl

theorem crc32EmbedOp_eq {buf : Descriptor} {len : Nat} (h4 : 4 ≤ len) (hl : len ≤ buf.size) (hn : len < 2 ^ 32)
    (s : State) :
    crc32EmbedOp buf len s =
      .ok (((((s.setByte (len - 4) (byteOf (crc32Of s.rom32 (bytesOf s (len - 4))) 3)).setByte (len - 3)
        (byteOf (crc32Of s.rom32 (bytesOf s (len - 4))) 2)).setByte (len - 2)
        (byteOf (crc32Of s.rom32 (bytesOf s (len - 4))) 1)).setByte (len - 1)
        (byteOf (crc32Of s.rom32 (bytesOf s (len - 4))) 0)).finishAcc respDone) := by
  have e3 : len - 4 + 1 = len - 3 := by omega
  have e2 : len - 3 + 1 = len - 2 := by omega
  have e1 : len - 2 + 1 = len - 1 := by omega
  rw [crc32EmbedOp, crc32Core_eq hl hn]
  simp only [embedFooter, crc32Footer, crc32Width]
  rw [writeBytes_quad (by omega), e3, e2, e1]
  rfl

end Sys2Proof.Machine
end

