-- ==== Sys2Proof/Laws/Step.lean ====
section
/-!
SUPPORT. What an operation and a step can answer, said once: an error with no other effect, a normal end that stores nothing,
or an Embed that stores its footer. No premise on the state or the operands.
-/

namespace Sys2Proof.Machine

open Sys2Proof.Safety

/-- Bytes stored one after another from `a` on. -/
def State.setBytes (s : State) : Nat → List Byte → State
  | _, [] => s
  | a, b :: l => (s.setByte a b).setBytes (a + 1) l

theorem State.setBytes_bufByte_other (s : State) {a x : Nat} {l : List Byte} (hx : x < a ∨ a + l.length ≤ x) :
    (s.setBytes a l).bufByte x = s.bufByte x := by
  induction l generalizing s a with
  | nil => rfl
  | cons b l ih =>
    simp only [List.length] at hx
    rw [State.setBytes, ih _ (by omega), State.setByte_bufByte_other _ _ (by omega)]

theorem State.setBytes_wf {s : State} (hs : Memory.wf unlistedByte s.buf) (a : Nat) (l : List Byte) :
    Memory.wf unlistedByte (s.setBytes a l).buf := by
  induction l generalizing s a with
  | nil => exact hs
  | cons b l ih => exact ih (State.setByte_wf hs a b) (a + 1)

/-- Storing bytes moves nothing but the buffer. -/
theorem State.setBytes_eq (s : State) (a : Nat) (l : List Byte) :
    s.setBytes a l = { s with buf := (s.setBytes a l).buf } := by
  induction l generalizing s a with
  | nil => rfl
  | cons b l ih =>
    have h := ih (s.setByte a b) (a + 1)
    simp only [State.setBytes]
    rw [h]
    rfl

theorem writeBytes_inv {buf : Descriptor} {a : Nat} {l : List Byte} {s t : State}
    (h : writeBytes buf a l s = .ok t) : t = s.setBytes a l := by
  induction l generalizing s a with
  | nil => simp [writeBytes] at h; exact h.symm
  | cons b l ih =>
    simp only [writeBytes, writeByte] at h
    by_cases ha : a < buf.size
    · simp only [ha, if_true] at h
      exact ih h
    · simp [ha] at h

/-- A loop whose body moves ACC only moves ACC and IDX only. -/
theorem loop_moves_acc {body : Nat → State → Except Fault State} (hb : ∀ i s t, body i s = .ok t → ∃ a, t = s.setAcc a)
    {n : Nat} {s t : State} (h : loop body n s = .ok t) : ∃ a x, t = { s with acc := a, idx := x } := by
  induction n generalizing t with
  | zero => simp [loop] at h; exact ⟨_, _, h.symm⟩
  | succ n ih =>
    simp only [loop] at h
    split at h
    · cases h
    · rename_i s₁ h₁
      obtain ⟨a, x, rfl⟩ := ih h₁
      split at h
      · cases h
      · rename_i s₂ h₂
        obtain ⟨b, rfl⟩ := hb _ _ _ h₂
        simp only [Except.ok.injEq] at h
        exact ⟨b, _, h.symm⟩

/-- A loop whose body moves SUM only moves SUM and IDX only. -/
theorem loop_moves_sum {body : Nat → State → Except Fault State} (hb : ∀ i s t, body i s = .ok t → ∃ a, t = s.setSum a)
    {n : Nat} {s t : State} (h : loop body n s = .ok t) : ∃ a x, t = { s with sum := a, idx := x } := by
  induction n generalizing t with
  | zero => simp [loop] at h; exact ⟨_, _, h.symm⟩
  | succ n ih =>
    simp only [loop] at h
    split at h
    · cases h
    · rename_i s₁ h₁
      obtain ⟨a, x, rfl⟩ := ih h₁
      split at h
      · cases h
      · rename_i s₂ h₂
        obtain ⟨b, rfl⟩ := hb _ _ _ h₂
        simp only [Except.ok.injEq] at h
        exact ⟨b, _, h.symm⟩

theorem ck5Step_inv {bits : Descriptor} (i : Nat) (s t : State) (h : ck5Step bits i s = .ok t) :
    ∃ a, t = s.setSum a := by
  unfold ck5Step at h
  split at h <;> simp at h
  exact ⟨_, h.symm⟩

theorem crc8Step_inv {buf : Descriptor} (i : Nat) (s t : State) (h : crc8Step buf i s = .ok t) :
    ∃ a, t = s.setAcc a := by
  unfold crc8Step at h
  split at h <;> simp at h
  exact ⟨_, h.symm⟩

theorem crc9Step_inv {buf : Descriptor} (i : Nat) (s t : State) (h : crc9Step buf i s = .ok t) :
    ∃ a, t = s.setAcc a := by
  unfold crc9Step at h
  split at h
  · cases h
  · simp at h; exact ⟨s.acc, h.symm⟩
  · split at h
    · simp at h; exact ⟨s.acc, h.symm⟩
    · unfold crc9Xor at h
      split at h <;> simp at h
      exact ⟨_, h.symm⟩

theorem ccitt1Step_inv {buf : Descriptor} (i : Nat) (s t : State) (h : ccitt1Step buf i s = .ok t) :
    ∃ a, t = s.setAcc a := by
  unfold ccitt1Step at h
  split at h <;> simp at h
  exact ⟨_, h.symm⟩

theorem ccitt2Step_inv {buf : Descriptor} (i : Nat) (s t : State) (h : ccitt2Step buf i s = .ok t) :
    ∃ a, t = s.setAcc a := by
  unfold ccitt2Step at h
  split at h <;> simp at h
  exact ⟨_, h.symm⟩

theorem crc32Step_inv {buf : Descriptor} (i : Nat) (s t : State) (h : crc32Step buf i s = .ok t) :
    ∃ a, t = s.setAcc a := by
  unfold crc32Step at h
  split at h <;> simp at h
  exact ⟨_, h.symm⟩

theorem bitSerialStep_inv {buf : Descriptor} (i : Nat) (s t : State) (h : bitSerialStep buf i s = .ok t) :
    ∃ a, t = s.setAcc a := by
  unfold bitSerialStep at h
  split at h <;> simp at h
  exact ⟨_, h.symm⟩

theorem ck5Sum_inv {bits : Descriptor} {s t : State} (h : ck5Sum bits s = .ok t) :
    ∃ a x, t = { s with sum := a, idx := x } :=
  loop_moves_sum ck5Step_inv (s := (s.setSum 0).setIdx 0) h

theorem crc8Core_inv {buf : Descriptor} {n : Nat} {s t : State} (h : crc8Core buf n s = .ok t) :
    ∃ a x, t = { s with acc := a, idx := x } :=
  loop_moves_acc crc8Step_inv (s := (s.setAcc (crc8Init.setWidth 32)).setIdx 0) h

theorem bitSerialCore_inv {buf : Descriptor} {n : Nat} {s t : State} (h : bitSerialCore buf n s = .ok t) :
    ∃ a x, t = { s with acc := a, idx := x } :=
  loop_moves_acc bitSerialStep_inv (s := (s.setAcc (bitSerialInit.setWidth 32)).setIdx 0) h

theorem crc9Core_inv {buf : Descriptor} {n : Nat} {s t : State} (h : crc9Core buf n s = .ok t) :
    ∃ a x, t = { s with acc := a, idx := x } := by
  unfold crc9Core at h
  split at h
  · cases h
  · rename_i u hu
    obtain ⟨a, x, rfl⟩ := loop_moves_acc crc9Step_inv hu
    simp only [Except.ok.injEq] at h
    exact ⟨_, _, h.symm⟩

theorem ccitt1Core_inv {buf : Descriptor} {n : Nat} {s t : State} (h : ccitt1Core buf n s = .ok t) :
    ∃ a x, t = { s with acc := a, idx := x } := by
  unfold ccitt1Core at h
  split at h
  · cases h
  · rename_i u hu
    obtain ⟨a, x, rfl⟩ := loop_moves_acc ccitt1Step_inv hu
    simp only [Except.ok.injEq] at h
    exact ⟨_, _, h.symm⟩

theorem ccitt2Core_inv {buf : Descriptor} {n : Nat} {s t : State} (h : ccitt2Core buf n s = .ok t) :
    ∃ a x, t = { s with acc := a, idx := x } := by
  unfold ccitt2Core at h
  split at h
  · cases h
  · rename_i u hu
    obtain ⟨a, x, rfl⟩ := loop_moves_acc ccitt2Step_inv hu
    simp only [Except.ok.injEq] at h
    exact ⟨_, _, h.symm⟩

theorem crc32Core_inv {buf : Descriptor} {n : Nat} {s t : State} (h : crc32Core buf n s = .ok t) :
    ∃ a x, t = { s with acc := a, idx := x } := by
  unfold crc32Core at h
  split at h
  · cases h
  · rename_i u hu
    obtain ⟨a, x, rfl⟩ := loop_moves_acc crc32Step_inv hu
    simp only [Except.ok.injEq] at h
    exact ⟨_, _, h.symm⟩

/-- A response of a normal ending (10_state.md R20). -/
def NormalResponse (r : Response) : Prop := (∃ v, r = respValue v) ∨ (∃ b, r = respVerdict b) ∨ r = respDone

/-- The operation is an Embed that stores `w` bytes from `len - w` on. -/
def StoresFooter (i : Instr) (buf : Descriptor) (len w : Nat) : Prop :=
  (i = .ccitt1Embed buf len ∧ w = 2) ∨ (i = .ccitt2Embed buf len ∧ w = 2) ∨ (i = .crc32Embed buf len ∧ w = 4)

theorem StoresFooter.not_usesSum {i : Instr} {buf : Descriptor} {len w : Nat} (h : StoresFooter i buf len w) :
    usesSum i = false := by
  rcases h with ⟨rfl, _⟩ | ⟨rfl, _⟩ | ⟨rfl, _⟩ <;> rfl

/-- Everything an operation can answer as a next state. -/
inductive ExecCase (i : Instr) (s : State) : State → Prop where
  | error (k : ErrorKind) : ExecCase i s (s.raise k)
  | sum (r : Response) (hr : NormalResponse r) (hi : usesSum i = true) : ExecCase i s (s.finishSum r)
  | acc (r : Response) (hr : NormalResponse r) (hi : usesSum i = false) : ExecCase i s (s.finishAcc r)
  | embed (buf : Descriptor) (len w : Nat) (footer : List Byte) (hi : StoresFooter i buf len w)
      (hf : footer.length = w) (hw : w ≤ len) (hl : len ≤ buf.size) :
      ExecCase i s ((s.setBytes (len - w) footer).finishAcc respDone)

theorem checkBytes_none {w len : Nat} {buf : Descriptor} (h : checkBytes w buf len = none) :
    w ≤ len ∧ len ≤ buf.size := by
  unfold checkBytes at h
  split at h
  · cases h
  · split at h
    · cases h
    · split at h
      · cases h
      · exact ⟨by omega, by omega⟩

theorem verifyFooter_inv {buf : Descriptor} {a : Nat} {footer : List Byte} {s t : State}
    (h : verifyFooter buf a footer s = .ok t) : ∃ b, t = s.finishAcc (respVerdict b) := by
  unfold verifyFooter at h
  split at h <;> simp at h
  exact ⟨_, h.symm⟩

theorem embedFooter_inv {buf : Descriptor} {a : Nat} {footer : List Byte} {s t : State}
    (h : embedFooter buf a footer s = .ok t) : t = (s.setBytes a footer).finishAcc respDone := by
  unfold embedFooter at h
  split at h
  · cases h
  · rename_i u hu
    simp only [Except.ok.injEq] at h
    rw [← writeBytes_inv hu, h]

theorem State.setBytes_moved (s : State) (a : BitVec 32) (x : BitVec 32) (p : Nat) (l : List Byte) :
    (State.setBytes { s with acc := a, idx := x } p l) = { s.setBytes p l with acc := a, idx := x } := by
  induction l generalizing s p with
  | nil => rfl
  | cons b l ih => exact ih (s.setByte p b) (p + 1)

theorem State.finishAcc_moved (s : State) (a : BitVec 32) (x : BitVec 32) (r : Response) :
    State.finishAcc { s with acc := a, idx := x } r = s.finishAcc r := rfl

theorem State.finishSum_moved (s : State) (a : BitVec 12) (x : BitVec 32) (r : Response) :
    State.finishSum { s with sum := a, idx := x } r = s.finishSum r := rfl

/-- The inversion lemma of `exec`. -/
theorem exec_next {i : Instr} {s t : State} (h : exec i s = .next t) : ExecCase i s t := by
  cases i with
  | ck5Compute bits =>
    rcases guarded_next h with ⟨k, _, rfl⟩ | ⟨_, h⟩
    · exact .error k
    · unfold ck5ComputeOp at h
      split at h
      · cases h
      · rename_i u hu
        obtain ⟨a, x, rfl⟩ := ck5Sum_inv hu
        simp only [Except.ok.injEq, State.finishSum_moved] at h
        exact h ▸ .sum _ (.inl ⟨_, rfl⟩) rfl
  | ck5Verify bits e =>
    rcases guarded_next h with ⟨k, _, rfl⟩ | ⟨_, h⟩
    · exact .error k
    · unfold ck5VerifyOp at h
      split at h
      · cases h
      · rename_i u hu
        obtain ⟨a, x, rfl⟩ := ck5Sum_inv hu
        simp only [Except.ok.injEq, State.finishSum_moved] at h
        exact h ▸ .sum _ (.inr (.inl ⟨_, rfl⟩)) rfl
  | crc8Compute buf len =>
    rcases guarded_next h with ⟨k, _, rfl⟩ | ⟨_, h⟩
    · exact .error k
    · unfold crc8ComputeOp at h
      split at h
      · cases h
      · rename_i u hu
        obtain ⟨a, x, rfl⟩ := crc8Core_inv hu
        simp only [Except.ok.injEq, State.finishAcc_moved] at h
        exact h ▸ .acc _ (.inl ⟨_, rfl⟩) rfl
  | crc9Compute buf len =>
    rcases guarded_next h with ⟨k, _, rfl⟩ | ⟨_, h⟩
    · exact .error k
    · unfold crc9ComputeOp at h
      split at h
      · cases h
      · rename_i u hu
        obtain ⟨a, x, rfl⟩ := crc9Core_inv hu
        simp only [Except.ok.injEq, State.finishAcc_moved] at h
        exact h ▸ .acc _ (.inl ⟨_, rfl⟩) rfl
  | ccittsCompute buf len =>
    rcases guarded_next h with ⟨k, _, rfl⟩ | ⟨_, h⟩
    · exact .error k
    · unfold ccittsComputeOp at h
      split at h
      · cases h
      · rename_i u hu
        obtain ⟨a, x, rfl⟩ := bitSerialCore_inv hu
        simp only [Except.ok.injEq, State.finishAcc_moved] at h
        exact h ▸ .acc _ (.inl ⟨_, rfl⟩) rfl
  | ccitt1Verify buf len =>
    rcases guarded_next h with ⟨k, _, rfl⟩ | ⟨_, h⟩
    · exact .error k
    · unfold ccitt1VerifyOp at h
      split at h
      · cases h
      · rename_i u hu
        obtain ⟨a, x, rfl⟩ := ccitt1Core_inv hu
        obtain ⟨b, rfl⟩ := verifyFooter_inv h
        exact .acc _ (.inr (.inl ⟨b, rfl⟩)) rfl
  | ccitt2Verify buf len =>
    rcases guarded_next h with ⟨k, _, rfl⟩ | ⟨_, h⟩
    · exact .error k
    · unfold ccitt2VerifyOp at h
      split at h
      · cases h
      · rename_i u hu
        obtain ⟨a, x, rfl⟩ := ccitt2Core_inv hu
        obtain ⟨b, rfl⟩ := verifyFooter_inv h
        exact .acc _ (.inr (.inl ⟨b, rfl⟩)) rfl
  | crc32Verify buf len =>
    rcases guarded_next h with ⟨k, _, rfl⟩ | ⟨_, h⟩
    · exact .error k
    · unfold crc32VerifyOp at h
      split at h
      · cases h
      · rename_i u hu
        obtain ⟨a, x, rfl⟩ := crc32Core_inv hu
        obtain ⟨b, rfl⟩ := verifyFooter_inv h
        exact .acc _ (.inr (.inl ⟨b, rfl⟩)) rfl
  | ccitt1Embed buf len =>
    rcases guarded_next h with ⟨k, _, rfl⟩ | ⟨hc, h⟩
    · exact .error k
    · unfold ccitt1EmbedOp at h
      split at h
      · cases h
      · rename_i u hu
        obtain ⟨a, x, rfl⟩ := ccitt1Core_inv hu
        have := embedFooter_inv h
        rw [State.setBytes_moved, State.finishAcc_moved] at this
        subst this
        exact .embed buf len 2 _ (.inl ⟨rfl, rfl⟩) rfl (checkBytes_none hc).1 (checkBytes_none hc).2
  | ccitt2Embed buf len =>
    rcases guarded_next h with ⟨k, _, rfl⟩ | ⟨hc, h⟩
    · exact .error k
    · unfold ccitt2EmbedOp at h
      split at h
      · cases h
      · rename_i u hu
        obtain ⟨a, x, rfl⟩ := ccitt2Core_inv hu
        have := embedFooter_inv h
        rw [State.setBytes_moved, State.finishAcc_moved] at this
        subst this
        exact .embed buf len 2 _ (.inr (.inl ⟨rfl, rfl⟩)) rfl (checkBytes_none hc).1 (checkBytes_none hc).2
  | crc32Embed buf len =>
    rcases guarded_next h with ⟨k, _, rfl⟩ | ⟨hc, h⟩
    · exact .error k
    · unfold crc32EmbedOp at h
      split at h
      · cases h
      · rename_i u hu
        obtain ⟨a, x, rfl⟩ := crc32Core_inv hu
        have := embedFooter_inv h
        rw [State.setBytes_moved, State.finishAcc_moved] at this
        subst this
        exact .embed buf len 4 _ (.inr (.inr ⟨rfl, rfl⟩)) rfl (checkBytes_none hc).1 (checkBytes_none hc).2

/-- The inversion lemma of `step`: idle, an illegal code, or an operation of the accepted command. -/
theorem step_next {s t : State} (h : step s = .next t) :
    (s.command = none ∧ t = s) ∨
    (∃ c e, s.command = some c ∧ decode c = .error e ∧ t = s.accept.raise .illegalOp) ∨
    (∃ c i, s.command = some c ∧ decode c = .ok i ∧ ExecCase i s.accept t) := by
  unfold step at h
  split at h
  · rename_i hc
    simp only [Host.Outcome.next.injEq] at h
    exact .inl ⟨hc, h.symm⟩
  · rename_i c hc
    split at h
    · rename_i i hi
      exact .inr (.inr ⟨c, i, hc, hi, exec_next h⟩)
    · rename_i e he
      simp only [Host.Outcome.next.injEq] at h
      exact .inr (.inl ⟨c, e, hc, he, h.symm⟩)

end Sys2Proof.Machine
end

