-- ==== Sys2Proof/Laws/PerInstr.lean ====
section
/-!
SUPPORT. Statements made once per operation: what the encoder puts in the command port (30_encoding.md R51, R52).
-/

namespace Sys2Proof.Laws.OpCode

/-- The code is not reserved, and only the descriptor of the operation's format is presented. -/
def Statement (i : Instr) : Prop :=
  (encode i).op.toNat < 11 ∧
    ((encode i).op.toNat < 2 → (encode i).bufPresent = false) ∧
    (2 ≤ (encode i).op.toNat → (encode i).bitsPresent = false ∧ (encode i).expected = 0)

theorem ck5Compute (bits : Descriptor) : Statement (.ck5Compute bits) := by
  refine ⟨(by decide : (0b0000#4).toNat < 11), fun _ => rfl, fun h => absurd h (by decide : ¬ 2 ≤ (0b0000#4).toNat)⟩

theorem ck5Verify (bits : Descriptor) (expected : Word) : Statement (.ck5Verify bits expected) := by
  refine ⟨(by decide : (0b0001#4).toNat < 11), fun _ => rfl, fun h => absurd h (by decide : ¬ 2 ≤ (0b0001#4).toNat)⟩

theorem crc8Compute (buf : Descriptor) (len : Nat) : Statement (.crc8Compute buf len) := by
  refine ⟨(by decide : (0b0010#4).toNat < 11), fun h => absurd h (by decide : ¬ (0b0010#4).toNat < 2), fun _ => ⟨rfl, rfl⟩⟩

theorem crc9Compute (buf : Descriptor) (bitLen : Nat) : Statement (.crc9Compute buf bitLen) := by
  refine ⟨(by decide : (0b0011#4).toNat < 11), fun h => absurd h (by decide : ¬ (0b0011#4).toNat < 2), fun _ => ⟨rfl, rfl⟩⟩

theorem ccitt1Verify (buf : Descriptor) (len : Nat) : Statement (.ccitt1Verify buf len) := by
  refine ⟨(by decide : (0b0100#4).toNat < 11), fun h => absurd h (by decide : ¬ (0b0100#4).toNat < 2), fun _ => ⟨rfl, rfl⟩⟩

theorem ccitt1Embed (buf : Descriptor) (len : Nat) : Statement (.ccitt1Embed buf len) := by
  refine ⟨(by decide : (0b0101#4).toNat < 11), fun h => absurd h (by decide : ¬ (0b0101#4).toNat < 2), fun _ => ⟨rfl, rfl⟩⟩

theorem ccitt2Verify (buf : Descriptor) (len : Nat) : Statement (.ccitt2Verify buf len) := by
  refine ⟨(by decide : (0b0110#4).toNat < 11), fun h => absurd h (by decide : ¬ (0b0110#4).toNat < 2), fun _ => ⟨rfl, rfl⟩⟩

theorem ccitt2Embed (buf : Descriptor) (len : Nat) : Statement (.ccitt2Embed buf len) := by
  refine ⟨(by decide : (0b0111#4).toNat < 11), fun h => absurd h (by decide : ¬ (0b0111#4).toNat < 2), fun _ => ⟨rfl, rfl⟩⟩

theorem crc32Verify (buf : Descriptor) (len : Nat) : Statement (.crc32Verify buf len) := by
  refine ⟨(by decide : (0b1000#4).toNat < 11), fun h => absurd h (by decide : ¬ (0b1000#4).toNat < 2), fun _ => ⟨rfl, rfl⟩⟩

theorem crc32Embed (buf : Descriptor) (len : Nat) : Statement (.crc32Embed buf len) := by
  refine ⟨(by decide : (0b1001#4).toNat < 11), fun h => absurd h (by decide : ¬ (0b1001#4).toNat < 2), fun _ => ⟨rfl, rfl⟩⟩

theorem ccittsCompute (buf : Descriptor) (bitLen : Nat) : Statement (.ccittsCompute buf bitLen) := by
  refine ⟨(by decide : (0b1010#4).toNat < 11), fun h => absurd h (by decide : ¬ (0b1010#4).toNat < 2), fun _ => ⟨rfl, rfl⟩⟩

end Sys2Proof.Laws.OpCode
end

