-- ==== Sys2Proof/Tests/Slice0.lean ====
section
/-!
SUPPORT. The model's own tests: the ill-formed terms WellFormed refuses, the operation codes of 30_encoding.md R52 written
out bit by bit, one small step per test with the expected result taken from 95_test_vectors.md (the vector's name stands
beside it), and for every statement with hypotheses a theorem that shows a state and operands that meet them.
-/

namespace Sys2Proof.Tests

open Sys2Proof.Machine Sys2Proof.Safety

/-! ## WellFormed -/

theorem test_ill_formed_bit_array_size : (Instr.ck5Compute ⟨true, 2 ^ 32⟩).wellFormed = false := by decide
theorem test_ill_formed_verify_array_size : (Instr.ck5Verify ⟨true, 2 ^ 32⟩ 0).wellFormed = false := by decide
theorem test_ill_formed_buffer_size : (Instr.crc8Compute ⟨true, 2 ^ 32⟩ 0).wellFormed = false := by decide
theorem test_ill_formed_byte_count : (Instr.crc32Embed ⟨true, 1⟩ (2 ^ 32)).wellFormed = false := by decide
theorem test_ill_formed_bit_count : (Instr.crc9Compute ⟨true, 1⟩ (2 ^ 32)).wellFormed = false := by decide
theorem test_ill_formed_serial_bit_count : (Instr.ccittsCompute ⟨true, 1⟩ (2 ^ 32)).wellFormed = false := by decide
theorem test_largest_operands_are_well_formed :
    (Instr.ccitt1Verify ⟨false, 2 ^ 32 - 1⟩ (2 ^ 32 - 1)).wellFormed = true := by decide

/-! ## The operation codes, bit by bit (R52) -/

/-- A command with the code `op` and a different value in every operand field. -/
def sample (op : BitVec 4) : Command :=
  { op := op, len := 7, expected := 0x2E, bufPresent := true, bufSize := 9, bitsPresent := true, bitsSize := 80 }

theorem test_code_0000 : decode (sample 0b0000) = .ok (.ck5Compute ⟨true, 80⟩) := by decide
theorem test_code_0001 : decode (sample 0b0001) = .ok (.ck5Verify ⟨true, 80⟩ 0x2E) := by decide
theorem test_code_0010 : decode (sample 0b0010) = .ok (.crc8Compute ⟨true, 9⟩ 7) := by decide
theorem test_code_0011 : decode (sample 0b0011) = .ok (.crc9Compute ⟨true, 9⟩ 7) := by decide
theorem test_code_0100 : decode (sample 0b0100) = .ok (.ccitt1Verify ⟨true, 9⟩ 7) := by decide
theorem test_code_0101 : decode (sample 0b0101) = .ok (.ccitt1Embed ⟨true, 9⟩ 7) := by decide
theorem test_code_0110 : decode (sample 0b0110) = .ok (.ccitt2Verify ⟨true, 9⟩ 7) := by decide
theorem test_code_0111 : decode (sample 0b0111) = .ok (.ccitt2Embed ⟨true, 9⟩ 7) := by decide
theorem test_code_1000 : decode (sample 0b1000) = .ok (.crc32Verify ⟨true, 9⟩ 7) := by decide
theorem test_code_1001 : decode (sample 0b1001) = .ok (.crc32Embed ⟨true, 9⟩ 7) := by decide
theorem test_code_1010 : decode (sample 0b1010) = .ok (.ccittsCompute ⟨true, 9⟩ 7) := by decide
theorem test_codes_11_to_15_are_reserved :
    [0b1011, 0b1100, 0b1101, 0b1110, 0b1111].map (fun op => decode (sample op)) =
      [.error (.reservedOp 11), .error (.reservedOp 12), .error (.reservedOp 13), .error (.reservedOp 14),
        .error (.reservedOp 15)] := by decide
theorem test_table_word : decodeTableWord 4 0b1001 = some (.crc32Embed ⟨false, 0⟩ 0) := by decide
theorem test_table_word_in_a_whole_byte : decodeTableWord 8 0b00001010 = some (.ccittsCompute ⟨false, 0⟩ 0) := by decide
theorem test_table_word_reserved : decodeTableWord 8 0b00001011 = none ∧ decodeTableWord 8 0b00010000 = none := by decide

/-! ## One step -/

set_option maxRecDepth 20000

/-- The table of a shift register that moves toward its most significant end, as 93_implementation_defined.md G1 writes
`MSB(poly, n)`: eight shifts of the index placed in the top byte. -/
def shiftUp {n : Nat} (poly : BitVec n) : Nat → BitVec n → BitVec n
  | 0, a => a
  | k + 1, a => shiftUp poly k (if a.msb then (a <<< 1) ^^^ poly else a <<< 1)

/-- The same toward the least significant end, `LSB(poly)`. -/
def shiftDown {n : Nat} (poly : BitVec n) : Nat → BitVec n → BitVec n
  | 0, a => a
  | k + 1, a => shiftDown poly k (if a.getLsbD 0 then (a >>> 1) ^^^ poly else a >>> 1)

/-- A machine with the candidate tables of 93_implementation_defined.md G1 (not normative: the spec fixes no contents),
ROM9 with the fifteen words 1 to 15, a buffer and a bit array as listed. -/
def machine (bytes : List Host.Cell) (bits : List (Nat × Bool)) : State where
  rom8 := Vector.ofFn fun i => shiftUp 0x07 8 (BitVec.ofNat 8 i.val)
  rom9 := (List.range 15).map fun i => BitVec.ofNat 9 (i + 1)
  romC1 := Vector.ofFn fun i => shiftDown 0x8408 8 (BitVec.ofNat 16 i.val)
  romC2 := Vector.ofFn fun i => shiftUp 0x1021 8 (BitVec.ofNat 16 i.val <<< 8)
  rom32 := Vector.ofFn fun i => shiftUp 0x04C11DB7 8 (BitVec.ofNat 32 i.val <<< 24)
  acc := 0xDEADBEEF
  sum := 0xABC
  idx := 77
  command := none
  response := none
  buf := bytes
  bits := bits
  freeCount := 0

/-- The response after an outcome; none where it is no next state. -/
def answer : Host.Outcome State Fault Refusal → Option Response
  | .next t => t.response
  | .fault _ => none
  | .refused _ => none

/-- The first `n` bytes of the buffer after an outcome. -/
def bytesAfter (n : Nat) : Host.Outcome State Fault Refusal → List Byte
  | .next t => bytesOf t n
  | .fault _ => []
  | .refused _ => []

/-- The bits that are set in the nine bytes 1, 2, ..., 9 (V-K3). -/
def oneToNine : List (Nat × Bool) :=
  [(7, true), (14, true), (22, true), (23, true), (29, true), (37, true), (39, true), (45, true), (46, true),
    (53, true), (54, true), (55, true), (60, true), (68, true), (71, true)]

/-- "123456789" (V-S8). -/
def digits : List Host.Cell :=
  [(0, 0x31), (1, 0x32), (2, 0x33), (3, 0x34), (4, 0x35), (5, 0x36), (6, 0x37), (7, 0x38), (8, 0x39)]

/-- V-K3. -/
theorem test_ck5_compute : answer (exec (.ck5Compute ⟨true, 72⟩) (machine [] oneToNine)) = some (respValue 14) := by
  decide

/-- V-K17. -/
theorem test_ck5_compute_short_array :
    answer (exec (.ck5Compute ⟨true, 71⟩) (machine [] oneToNine)) = some ⟨3, false, 0⟩ := by decide

/-- V-K12. -/
theorem test_ck5_verify : answer (exec (.ck5Verify ⟨true, 72⟩ 14) (machine [] oneToNine)) = some ⟨0, true, 0⟩ := by
  decide

/-- V-K15: no masking of `EXPECTED`. -/
theorem test_ck5_verify_whole_word :
    answer (exec (.ck5Verify ⟨true, 72⟩ 0x8000000E) (machine [] oneToNine)) = some ⟨0, false, 0⟩ := by decide

/-- X-8-3. -/
theorem test_crc8_compute :
    answer (exec (.crc8Compute ⟨true, 2⟩ 2) (machine [(0, 0x12), (1, 0x34)] [])) = some ⟨0, false, 0xF1⟩ := by decide

/-- V-8-1: no byte at all. -/
theorem test_crc8_compute_no_byte :
    answer (exec (.crc8Compute ⟨true, 1⟩ 0) (machine [(0, 0xAB)] [])) = some ⟨0, false, 0⟩ := by decide

/-- V-9-11: bits 0, 15 and 16 are set, 15 lies in the window; the table words 0 and 7 are 1 and 8. -/
theorem test_crc9_compute :
    answer (exec (.crc9Compute ⟨true, 3⟩ 24) (machine [(0, 0x80), (1, 0x01), (2, 0x80)] [])) =
      some ⟨0, false, 0x1FF - 9⟩ := by decide

/-- V-9-14 and V-9-15 with fifteen table words: 24 bits are the most, 25 are refused although none is set. -/
theorem test_crc9_compute_past_table :
    answer (exec (.crc9Compute ⟨true, 4⟩ 25) (machine [] [])) = some ⟨3, false, 0⟩ := by decide

/-- V-C1-2. -/
theorem test_ccitt1_verify_empty_payload :
    answer (exec (.ccitt1Verify ⟨true, 2⟩ 2) (machine [] [])) = some ⟨0, true, 0⟩ := by decide

/-- V-C1-7. -/
theorem test_ccitt1_verify_too_short :
    answer (exec (.ccitt1Verify ⟨true, 4⟩ 1) (machine [] [])) = some ⟨2, false, 0⟩ := by decide

/-- X-C1-3: the footer is stored high byte first, and the bytes behind it stay. -/
theorem test_ccitt1_embed :
    bytesAfter 6 (exec (.ccitt1Embed ⟨true, 6⟩ 4) (machine [(0, 0x12), (1, 0x34), (2, 0xEE), (4, 0xEE), (5, 0xEE)] [])) =
      [0x12, 0x34, 0x73, 0xA3, 0xEE, 0xEE] := by decide

/-- V-C1-6: the first two bytes are taken as the footer. -/
theorem test_ccitt1_embed_empty_payload :
    bytesAfter 3 (exec (.ccitt1Embed ⟨true, 3⟩ 2) (machine [(0, 0x12), (1, 0x34), (2, 0x56)] [])) =
      [0x00, 0x00, 0x56] := by decide

/-- PR1 step 2. -/
theorem test_ccitt2_verify :
    answer (exec (.ccitt2Verify ⟨true, 4⟩ 4) (machine [(0, 0x12), (1, 0x34), (2, 0xDC), (3, 0xF5)] [])) =
      some ⟨0, true, 0⟩ := by decide

/-- PR1 step 4, after the tamper. -/
theorem test_ccitt2_verify_tampered :
    answer (exec (.ccitt2Verify ⟨true, 4⟩ 4) (machine [(0, 0x13), (1, 0x34), (2, 0xDC), (3, 0xF5)] [])) =
      some ⟨0, false, 0⟩ := by decide

/-- X-C2-3: the footer is stored low byte first. -/
theorem test_ccitt2_embed :
    bytesAfter 4 (exec (.ccitt2Embed ⟨true, 4⟩ 4) (machine [(0, 0x12), (1, 0x34)] [])) =
      [0x12, 0x34, 0xDC, 0xF5] := by decide

/-- V-C2-1. -/
theorem test_ccitt2_embed_empty_payload :
    bytesAfter 2 (exec (.ccitt2Embed ⟨true, 2⟩ 2) (machine [(0, 0xAA), (1, 0xBB)] [])) = [0xFF, 0xFF] := by decide

/-- V-32-10: byte 4 is not read. -/
theorem test_crc32_verify_empty_payload :
    answer (exec (.crc32Verify ⟨true, 5⟩ 4)
      (machine [(0, 0xFF), (1, 0xFF), (2, 0xFF), (3, 0xFF), (4, 0x77)] [])) = some ⟨0, true, 0⟩ := by decide

/-- V-32-3. -/
theorem test_crc32_verify_last_byte :
    answer (exec (.crc32Verify ⟨true, 4⟩ 4) (machine [(0, 0xFF), (1, 0xFF), (2, 0xFF), (3, 0xFE)] [])) =
      some ⟨0, false, 0⟩ := by decide

/-- X-32a-3. -/
theorem test_crc32_embed :
    bytesAfter 6 (exec (.crc32Embed ⟨true, 6⟩ 6) (machine [(0, 0x12), (1, 0x34)] [])) =
      [0x12, 0x34, 0x88, 0x6A, 0xE1, 0xAF] := by decide

/-- V-32-8: 3 < 4 comes before 3 > 2. -/
theorem test_crc32_embed_range_first :
    answer (exec (.crc32Embed ⟨true, 2⟩ 3) (machine [] [])) = some ⟨2, false, 0⟩ := by decide

/-- V-S6: the low four bits of byte 1 are not read. -/
theorem test_ccitts_compute :
    answer (exec (.ccittsCompute ⟨true, 2⟩ 12) (machine [(0, 0xA5), (1, 0x5A)] [])) = some ⟨0, false, 0x1B55⟩ := by
  decide

/-- V-S8. -/
theorem test_ccitts_compute_digits :
    answer (exec (.ccittsCompute ⟨true, 9⟩ 72) (machine digits [])) = some ⟨0, false, 0x29B1⟩ := by decide

/-- V-E2: `IllegalOp` comes before `MissingInput`. -/
theorem test_reserved_code :
    answer (step ((machine [] []).issue { sample 0b1111 with bufPresent := false })) = some ⟨4, false, 0⟩ := by decide

/-- V-E6: the descriptor the format does not use is not examined. -/
theorem test_unused_descriptor :
    answer (step ((machine [] []).issue
      { sample 0b0010 with len := 0, bufSize := 4, bitsPresent := false, bitsSize := 0 })) = some ⟨0, false, 0⟩ := by decide

/-- The word of a table row stored where the step takes its command: an absent buffer, `MissingInput`. -/
theorem test_with_fetch_word :
    answer (step (State.reset.withFetchWord 4 0b0101)) = some ⟨1, false, 0⟩ := by decide

/-- 10_state.md R26, R27: a reset drops the pending command and the response, and the caller's bytes stay (V-32-10 after it). -/
theorem test_after_reset :
    ((machine [(0, 0xFF), (1, 0xFF), (2, 0xFF), (3, 0xFF)] []).issue (sample 0b1001)).afterReset.command = none ∧
      answer (step ((machine [(0, 0xFF), (1, 0xFF), (2, 0xFF), (3, 0xFF)] []).afterReset.issue
        { sample 0b1000 with len := 4 })) = some ⟨0, true, 0⟩ := by decide

/-- V-B4, V-B7. -/
theorem test_bit_packer :
    (List.range 16).map (machine [(0, 0x12), (1, 0x34)] []).bufBit =
        [false, false, false, true, false, false, true, false, false, false, true, true, false, true, false, false] ∧
      (machine [] [(3, true), (6, true), (10, true), (11, true), (13, true)]).packedAt 4 = 0x23 := by decide

/-! ## Hypotheses that are met

One theorem per statement with hypotheses: a concrete state and operands that meet them, and for a statement with several
clauses values at the boundary of each clause. -/

theorem witness_OperationCodesSelectOperations :
    (sample 0b0000).op = 0b0000 ∧ (sample 0b0001).op = 0b0001 ∧ (sample 0b0010).op = 0b0010 ∧
      (sample 0b0011).op = 0b0011 ∧ (sample 0b0100).op = 0b0100 ∧ (sample 0b0101).op = 0b0101 ∧
      (sample 0b0110).op = 0b0110 ∧ (sample 0b0111).op = 0b0111 ∧ (sample 0b1000).op = 0b1000 ∧
      (sample 0b1001).op = 0b1001 ∧ (sample 0b1010).op = 0b1010 ∧ 11 ≤ (sample 0b1011).op.toNat ∧
      11 ≤ (sample 0b1111).op.toNat := by decide

theorem witness_DecodeEncodeRoundTrip : (Instr.crc32Embed ⟨true, 2 ^ 32 - 1⟩ (2 ^ 32 - 1)).wellFormed = true := by
  decide

theorem witness_DecodedOperandsAreThePortsFields :
    (∃ i, decode (sample 0b0000) = .ok i ∧ (sample 0b0000).op.toNat < 2) ∧
      (∃ i, decode (sample 0b0001) = .ok i ∧ (sample 0b0001).op.toNat < 2 ∧ (sample 0b0001).op.toNat = 1) ∧
      (∃ i, decode (sample 0b0010) = .ok i ∧ 2 ≤ (sample 0b0010).op.toNat) ∧
      ∃ i, decode (sample 0b1010) = .ok i ∧ 2 ≤ (sample 0b1010).op.toNat :=
  ⟨⟨_, rfl, by decide⟩, ⟨_, rfl, by decide⟩, ⟨_, rfl, by decide⟩, ⟨_, rfl, by decide⟩⟩

/-- The hypotheses of `IgnoredFieldsDoNotMatter`, for any state. -/
def agreeOnFormat (c d : Command) : Prop :=
  d.op = c.op ∧ (c.op.toNat < 2 → d.bitsPresent = c.bitsPresent ∧ d.bitsSize = c.bitsSize) ∧
    (c.op.toNat = 1 → d.expected = c.expected) ∧
    (2 ≤ c.op.toNat → c.op.toNat < 11 → d.bufPresent = c.bufPresent ∧ d.bufSize = c.bufSize ∧ d.len = c.len)

theorem witness_IgnoredFieldsDoNotMatter :
    agreeOnFormat (sample 0b0000) { sample 0b0000 with len := 1, expected := 1, bufPresent := false, bufSize := 1 } ∧
      agreeOnFormat (sample 0b0001) { sample 0b0001 with len := 1, bufPresent := false, bufSize := 1 } ∧
      agreeOnFormat (sample 0b0010) { sample 0b0010 with expected := 1, bitsPresent := false, bitsSize := 1 } ∧
      agreeOnFormat (sample 0b1011)
        { sample 0b1011 with len := 1, expected := 1, bufPresent := false, bitsPresent := false } := by
  simp [agreeOnFormat, sample]

theorem witness_StepRunsDecodedOperation :
    ((machine [] []).issue (sample 0b0101)).command = some (sample 0b0101) ∧
      decode (sample 0b0101) = .ok (.ccitt1Embed ⟨true, 9⟩ 7) := by decide

theorem witness_IdleStepChangesNothing : State.reset.command = none := rfl

theorem witness_ReservedCodeRaisesIllegalOp :
    ((machine [] []).issue (sample 0b1010)).command = some (sample 0b1010) ∧ (sample 0b1010).op.toNat < 11 ∧
      ((machine [] []).issue (sample 0b1011)).command = some (sample 0b1011) ∧ 11 ≤ (sample 0b1011).op.toNat := by
  decide

theorem witness_ResetIsIdleWithRomsValid : 0 < Config.n9 := by unfold Config.n9; omega

theorem witness_absent_and_usable :
    Absent ⟨false, 72⟩ ∧ Absent ⟨true, 0⟩ ∧ Usable ⟨true, 1⟩ ∧ Usable ⟨true, 2 ^ 32 - 1⟩ := by
  simp [Absent, Usable]

theorem witness_Ck5ComputeIsByteSumMod31 :
    Absent ⟨false, 72⟩ ∧ Absent ⟨true, 0⟩ ∧
      (Usable ⟨true, 1⟩ ∧ (⟨true, 1⟩ : Descriptor).size < 72) ∧ (Usable ⟨true, 71⟩ ∧ (⟨true, 71⟩ : Descriptor).size < 72) ∧
      Usable ⟨true, 72⟩ ∧ 72 ≤ (⟨true, 72⟩ : Descriptor).size := by
  simp [Absent, Usable]

theorem witness_Ck5VerifyComparesWholeValue :
    Absent ⟨false, 72⟩ ∧ Absent ⟨true, 0⟩ ∧
      (Usable ⟨true, 1⟩ ∧ (⟨true, 1⟩ : Descriptor).size < 72) ∧ (Usable ⟨true, 71⟩ ∧ (⟨true, 71⟩ : Descriptor).size < 72) ∧
      Usable ⟨true, 80⟩ ∧ 72 ≤ (⟨true, 80⟩ : Descriptor).size := by
  simp [Absent, Usable]

theorem witness_Crc8ComputeFollowsTable8 :
    ((Instr.crc8Compute ⟨false, 4⟩ 9).wellFormed = true ∧ Absent ⟨false, 4⟩) ∧
      ((Instr.crc8Compute ⟨true, 0⟩ 0).wellFormed = true ∧ Absent ⟨true, 0⟩) ∧
      ((Instr.crc8Compute ⟨true, 2⟩ 3).wellFormed = true ∧ Usable ⟨true, 2⟩ ∧ (⟨true, 2⟩ : Descriptor).size < 3) ∧
      ((Instr.crc8Compute ⟨true, 2⟩ 2).wellFormed = true ∧ Usable ⟨true, 2⟩ ∧ 2 ≤ (⟨true, 2⟩ : Descriptor).size) ∧
      (Instr.crc8Compute ⟨true, 1⟩ 0).wellFormed = true ∧ Usable ⟨true, 1⟩ ∧ 0 ≤ (⟨true, 1⟩ : Descriptor).size := by
  refine ⟨⟨by decide, ?_⟩, ⟨by decide, ?_⟩, ⟨by decide, ?_⟩, ⟨by decide, ?_⟩, by decide, ?_⟩ <;> simp [Absent, Usable]

theorem witness_Crc9ComputeXorsSetBitsOutsideWindow :
    ((Instr.crc9Compute ⟨false, 4⟩ 9).wellFormed = true ∧ Absent ⟨false, 4⟩) ∧
      ((Instr.crc9Compute ⟨true, 1⟩ 9).wellFormed = true ∧ Usable ⟨true, 1⟩ ∧ 8 * (⟨true, 1⟩ : Descriptor).size < 9) ∧
      ((Instr.crc9Compute ⟨true, 4⟩ 25).wellFormed = true ∧ Usable ⟨true, 4⟩ ∧ (machine [] []).rom9.length + 9 < 25) ∧
      ((Instr.crc9Compute ⟨true, 3⟩ 24).wellFormed = true ∧ Usable ⟨true, 3⟩ ∧ 24 ≤ 8 * (⟨true, 3⟩ : Descriptor).size ∧
        24 ≤ (machine [] []).rom9.length + 9 ∧ 7 ≤ (machine [] []).rom9.length) ∧
      (Instr.crc9Compute ⟨true, 1⟩ 0).wellFormed = true ∧ Usable ⟨true, 1⟩ ∧ 0 ≤ 8 * (⟨true, 1⟩ : Descriptor).size ∧
        0 ≤ (machine [] []).rom9.length + 9 ∧ 7 ≤ (machine [] []).rom9.length := by
  refine ⟨⟨by decide, ?_⟩, ⟨by decide, ?_⟩, ⟨by decide, ?_⟩, ⟨by decide, ?_⟩, by decide, ?_⟩ <;>
    simp [Absent, Usable, machine]

/-- The clauses of the four CCITT statements: `i` is the operation applied to a descriptor and a length. -/
def ccittClauses (i : Descriptor → Nat → Instr) : Prop :=
  ((i ⟨false, 4⟩ 4).wellFormed = true ∧ Absent ⟨false, 4⟩) ∧ ((i ⟨true, 0⟩ 1).wellFormed = true ∧ Absent ⟨true, 0⟩) ∧
    ((i ⟨true, 4⟩ 1).wellFormed = true ∧ Usable ⟨true, 4⟩ ∧ 1 < 2) ∧
    ((i ⟨true, 1⟩ 2).wellFormed = true ∧ Usable ⟨true, 1⟩ ∧ 2 ≤ 2 ∧ (⟨true, 1⟩ : Descriptor).size < 2) ∧
    ((i ⟨true, 2⟩ 2).wellFormed = true ∧ Usable ⟨true, 2⟩ ∧ 2 ≤ 2 ∧ 2 ≤ (⟨true, 2⟩ : Descriptor).size) ∧
    (i ⟨true, 6⟩ 4).wellFormed = true ∧ Usable ⟨true, 6⟩ ∧ 2 ≤ 4 ∧ 4 ≤ (⟨true, 6⟩ : Descriptor).size

theorem witness_Ccitt1VerifyChecksFooter : ccittClauses .ccitt1Verify := by
  simp [ccittClauses, Absent, Usable, Instr.wellFormed, Descriptor.wellFormed, countFits]

theorem witness_Ccitt1EmbedStoresFooter : ccittClauses .ccitt1Embed ∧ Memory.wf unlistedByte (machine digits []).buf := by
  refine ⟨?_, by decide⟩
  simp [ccittClauses, Absent, Usable, Instr.wellFormed, Descriptor.wellFormed, countFits]

theorem witness_Ccitt2VerifyChecksFooter : ccittClauses .ccitt2Verify := by
  simp [ccittClauses, Absent, Usable, Instr.wellFormed, Descriptor.wellFormed, countFits]

theorem witness_Ccitt2EmbedStoresFooter : ccittClauses .ccitt2Embed ∧ Memory.wf unlistedByte (machine digits []).buf := by
  refine ⟨?_, by decide⟩
  simp [ccittClauses, Absent, Usable, Instr.wellFormed, Descriptor.wellFormed, countFits]

/-- The clauses of the two CRC32 statements. -/
def crc32Clauses (i : Descriptor → Nat → Instr) : Prop :=
  ((i ⟨false, 4⟩ 4).wellFormed = true ∧ Absent ⟨false, 4⟩) ∧ ((i ⟨true, 0⟩ 1).wellFormed = true ∧ Absent ⟨true, 0⟩) ∧
    ((i ⟨true, 2⟩ 3).wellFormed = true ∧ Usable ⟨true, 2⟩ ∧ 3 < 4) ∧
    ((i ⟨true, 3⟩ 4).wellFormed = true ∧ Usable ⟨true, 3⟩ ∧ 4 ≤ 4 ∧ (⟨true, 3⟩ : Descriptor).size < 4) ∧
    ((i ⟨true, 4⟩ 4).wellFormed = true ∧ Usable ⟨true, 4⟩ ∧ 4 ≤ 4 ∧ 4 ≤ (⟨true, 4⟩ : Descriptor).size) ∧
    (i ⟨true, 9⟩ 6).wellFormed = true ∧ Usable ⟨true, 9⟩ ∧ 4 ≤ 6 ∧ 6 ≤ (⟨true, 9⟩ : Descriptor).size

theorem witness_Crc32VerifyChecksFooter : crc32Clauses .crc32Verify := by
  simp [crc32Clauses, Absent, Usable, Instr.wellFormed, Descriptor.wellFormed, countFits]

theorem witness_Crc32EmbedStoresFooter : crc32Clauses .crc32Embed ∧ Memory.wf unlistedByte (machine digits []).buf := by
  refine ⟨?_, by decide⟩
  simp [crc32Clauses, Absent, Usable, Instr.wellFormed, Descriptor.wellFormed, countFits]

theorem witness_CcittsComputeIsBitSerial :
    ((Instr.ccittsCompute ⟨true, 0⟩ 0).wellFormed = true ∧ Absent ⟨true, 0⟩) ∧
      ((Instr.ccittsCompute ⟨true, 2⟩ 17).wellFormed = true ∧ Usable ⟨true, 2⟩ ∧ 8 * (⟨true, 2⟩ : Descriptor).size < 17) ∧
      ((Instr.ccittsCompute ⟨true, 2⟩ 16).wellFormed = true ∧ Usable ⟨true, 2⟩ ∧ 16 ≤ 8 * (⟨true, 2⟩ : Descriptor).size) ∧
      (Instr.ccittsCompute ⟨true, 1⟩ 0).wellFormed = true ∧ Usable ⟨true, 1⟩ ∧ 0 ≤ 8 * (⟨true, 1⟩ : Descriptor).size := by
  refine ⟨⟨by decide, ?_⟩, ⟨by decide, ?_⟩, ⟨by decide, ?_⟩, by decide, ?_⟩ <;> simp [Absent, Usable]

/-- The pending command and the four clauses behind decoding: V-E1, V-E3, V-E4, V-E5, and a CRC32 over its footer alone. -/
theorem witness_FirstApplicableErrorIsReported :
    7 ≤ (machine [] []).rom9.length ∧ ((machine [] []).issue (sample 0b1011)).command = some (sample 0b1011) ∧
      decode (sample 0b1011) = .error (.reservedOp 11) ∧
      decode { sample 0b0100 with bufPresent := false, len := 1 } = .ok (.ccitt1Verify ⟨false, 9⟩ 1) ∧
      Absent (requiredInput (.ccitt1Verify ⟨false, 9⟩ 1)) ∧
      (Usable (requiredInput (.crc32Embed ⟨true, 2⟩ 3)) ∧ FooterTooWide (.crc32Embed ⟨true, 2⟩ 3)) ∧
      (Usable (requiredInput (.crc32Embed ⟨true, 2⟩ 6)) ∧ ¬ FooterTooWide (.crc32Embed ⟨true, 2⟩ 6) ∧
        ExtentTooLong 15 (.crc32Embed ⟨true, 2⟩ 6)) ∧
      Admitted 15 (.crc32Embed ⟨true, 4⟩ 4) := by
  refine ⟨by decide, rfl, by decide, by decide, ?_⟩
  simp [Absent, Usable, requiredInput, FooterTooWide, ExtentTooLong, Admitted]

theorem witness_FailingCommandHasNoEffect :
    ∃ t r, ((machine digits []).issue { sample 0b1001 with len := 3 }).command = some { sample 0b1001 with len := 3 } ∧
      step ((machine digits []).issue { sample 0b1001 with len := 3 }) = .next t ∧ t.response = some r ∧ r.status ≠ 0 :=
  ⟨_, _, rfl, rfl, rfl, by decide⟩

theorem witness_ErrorLeavesNothingBehind :
    7 ≤ (machine digits []).rom9.length ∧
      ∃ t, step ((machine digits []).issue { sample 0b1001 with len := 10 }) = .next t ∧
        t.response = some (respError .boundsFault) :=
  ⟨by decide, _, rfl, rfl⟩

theorem witness_inv : Inv (machine digits oneToNine) where
  buf_wf := by decide
  bits_wf := by decide
  rom9_deep := by decide
  response_legal := by intro r h; cases h

theorem witness_StepKeepsInvariant :
    Inv ((machine digits oneToNine).issue (sample 0b0101)) ∧
      (answer (step ((machine digits oneToNine).issue (sample 0b0101)))).isSome = true :=
  ⟨⟨witness_inv.buf_wf, witness_inv.bits_wf, witness_inv.rom9_deep, witness_inv.response_legal⟩, by decide⟩

theorem witness_EveryCommandIsAnswered :
    7 ≤ (machine [] []).rom9.length ∧ ((machine [] []).issue (sample 0b0000)).command = some (sample 0b0000) := by decide

/-- A step that does change a byte: the footer of an empty payload is stored over `0xAA 0xBB`. -/
theorem witness_StepWritesOnlyEmbedFooters :
    (answer (step ((machine [(0, 0xAA), (1, 0xBB)] []).issue { sample 0b0111 with len := 2 }))).isSome = true ∧
      bytesAfter 2 (step ((machine [(0, 0xAA), (1, 0xBB)] []).issue { sample 0b0111 with len := 2 })) ≠ [0xAA, 0xBB] := by
  decide

theorem witness_ResponseDependsOnRomsCommandAndBuffers :
    Inv (machine digits oneToNine) ∧ Inv { machine digits oneToNine with acc := 0, sum := 0, idx := 0, freeCount := 3 } ∧
      SameRoms (machine digits oneToNine) { machine digits oneToNine with acc := 0, sum := 0, idx := 0, freeCount := 3 } ∧
      SameBytes (machine digits oneToNine) { machine digits oneToNine with acc := 0, sum := 0, idx := 0, freeCount := 3 } ∧
      SameBits (machine digits oneToNine) { machine digits oneToNine with acc := 0, sum := 0, idx := 0, freeCount := 3 } :=
  ⟨witness_inv, ⟨witness_inv.buf_wf, witness_inv.bits_wf, witness_inv.rom9_deep, witness_inv.response_legal⟩,
    ⟨rfl, rfl, rfl, rfl, rfl⟩, fun _ => rfl, fun _ => rfl⟩

/-- Two machines that differ at byte 4, at bit 32 and at element 72, and agree below. -/
theorem witness_ComputeAndVerifyReadOnlyTheirExtent :
    (4 : Nat) < 2 ^ 32 ∧ 7 ≤ (machine [] []).rom9.length ∧
      (∀ k, k < 72 → (machine [] [(72, true)]).bitAt k = (machine [] []).bitAt k) ∧
      (∀ a, a < 4 → (machine [(4, 0xFF)] []).bufByte a = (machine [] []).bufByte a) ∧
      (∀ i, i < 32 → (machine [(4, 0xFF)] []).bufBit i = (machine [] []).bufBit i) ∧
      (machine [(4, 0xFF)] []).rom8 = (machine [] []).rom8 ∧ (machine [(4, 0xFF)] []).rom9 = (machine [] []).rom9 := by
  refine ⟨by decide, by decide, by decide, by decide, by decide, rfl, rfl⟩

theorem witness_EmbedReadsOnlyPayload :
    (4 : Nat) < 2 ^ 32 ∧ Usable ⟨true, 4⟩ ∧ 4 ≤ (⟨true, 4⟩ : Descriptor).size ∧
      Memory.wf unlistedByte (machine [(0, 1), (1, 2)] []).buf ∧
      Memory.wf unlistedByte (machine [(0, 1), (1, 2), (2, 3), (3, 4)] []).buf ∧
      (∀ a, a < 4 - 2 → (machine [(0, 1), (1, 2), (2, 3), (3, 4)] []).bufByte a = (machine [(0, 1), (1, 2)] []).bufByte a) ∧
      ∀ a, a < 4 - 4 → (machine [(0, 1), (1, 2), (2, 3), (3, 4)] []).bufByte a = (machine [(0, 1), (1, 2)] []).bufByte a :=
  ⟨by decide, by simp [Usable], by decide, by decide, by decide, by decide, by decide⟩

theorem witness_CcittRoundTrip :
    Memory.wf unlistedByte (machine digits []).buf ∧ Usable ⟨true, 2⟩ ∧ (2 : Nat) < 2 ^ 32 ∧ 2 ≤ 2 ∧
      2 ≤ (⟨true, 2⟩ : Descriptor).size ∧ Usable ⟨true, 9⟩ ∧ (9 : Nat) < 2 ^ 32 ∧ 2 ≤ 9 ∧
      9 ≤ (⟨true, 9⟩ : Descriptor).size := by
  refine ⟨by decide, ?_⟩; simp [Usable]

theorem witness_Crc32RoundTrip :
    Memory.wf unlistedByte (machine digits []).buf ∧ Usable ⟨true, 4⟩ ∧ (4 : Nat) < 2 ^ 32 ∧ 4 ≤ 4 ∧
      4 ≤ (⟨true, 4⟩ : Descriptor).size ∧ Usable ⟨true, 9⟩ ∧ (9 : Nat) < 2 ^ 32 ∧ 4 ≤ 9 ∧
      9 ≤ (⟨true, 9⟩ : Descriptor).size := by
  refine ⟨by decide, ?_⟩; simp [Usable]

theorem witness_EmptyPayloadFooters :
    Memory.wf unlistedByte (machine [(0, 0xAA), (1, 0xBB)] []).buf ∧ (⟨true, 2⟩ : Descriptor).present = true ∧
      2 ≤ (⟨true, 2⟩ : Descriptor).size ∧ (⟨true, 4⟩ : Descriptor).present = true ∧
      4 ≤ (⟨true, 4⟩ : Descriptor).size := by decide

/-- The first bit and the last bit differ. -/
theorem witness_BitSerialDetectsSingleBit :
    (Instr.ccittsCompute ⟨true, 1⟩ 8).wellFormed = true ∧ Usable ⟨true, 1⟩ ∧ 8 ≤ 8 * (⟨true, 1⟩ : Descriptor).size ∧
      ((0 < 8 ∧ (machine [(0, 0x80)] []).bufBit 0 ≠ (machine [] []).bufBit 0 ∧
        ∀ i, i < 8 → i ≠ 0 → (machine [(0, 0x80)] []).bufBit i = (machine [] []).bufBit i) ∧
      7 < 8 ∧ (machine [(0, 0x01)] []).bufBit 7 ≠ (machine [] []).bufBit 7 ∧
        ∀ i, i < 8 → i ≠ 7 → (machine [(0, 0x01)] []).bufBit i = (machine [] []).bufBit i) :=
  ⟨by decide, by simp [Usable], by decide, by decide⟩

/-- Equal sums of different bytes, one byte in another place, one byte changed by 31 (V-K5), and the last bit changed. -/
theorem witness_Ck5DetectsWhat31DoesNotDivide :
    Usable ⟨true, 72⟩ ∧ 72 ≤ (⟨true, 72⟩ : Descriptor).size ∧
      ((groupsOf (machine [] [(6, true)])).map BitVec.toNat).sum =
        ((groupsOf (machine [] [(7, true), (71, true)])).map BitVec.toNat).sum ∧
      (groupsOf (machine [] [(71, true)])).Perm (groupsOf (machine [] [(7, true)])) ∧
      (∀ j, j < 9 → j ≠ 0 → (machine [] [(3, true), (4, true), (5, true), (6, true), (7, true)]).packedAt (8 * j) =
        (machine [] []).packedAt (8 * j)) ∧
      (machine [] [(71, true)]).bitAt 71 ≠ (machine [] []).bitAt 71 ∧
      ∀ j, j < 72 → j ≠ 71 → (machine [] [(71, true)]).bitAt j = (machine [] []).bitAt j :=
  ⟨by simp [Usable], by decide, by decide, by decide, by decide, by decide, by decide⟩

theorem witness_Ck5ResultAtMost30 :
    Usable ⟨true, 72⟩ ∧ 72 ≤ (⟨true, 72⟩ : Descriptor).size ∧ 31 ≤ (31 : Word).toNat ∧ 31 ≤ (0x2E : Word).toNat :=
  ⟨by simp [Usable], by decide, by decide, by decide⟩

/-- V-9-16: bits 7 and 15 differ. -/
theorem witness_Crc9IgnoresWindowBits :
    (Instr.crc9Compute ⟨true, 3⟩ 24).wellFormed = true ∧ 7 ≤ (machine [] []).rom9.length ∧
      (machine [(0, 0x01), (1, 0x01)] []).rom9 = (machine [] []).rom9 ∧
      ∀ i, i < 24 → i < 7 ∨ 15 < i → (machine [(0, 0x01), (1, 0x01)] []).bufBit i = (machine [] []).bufBit i :=
  ⟨by decide, by decide, rfl, by decide⟩

theorem witness_Crc9CountsSevenToSixteenAgree :
    Usable ⟨true, 2⟩ ∧ 7 ≤ (machine [] []).rom9.length ∧ (7 ≤ 7 ∧ 7 ≤ 16 ∧ 7 ≤ 8 * (⟨true, 2⟩ : Descriptor).size) ∧
      7 ≤ 16 ∧ 16 ≤ 16 ∧ 16 ≤ 8 * (⟨true, 2⟩ : Descriptor).size :=
  ⟨by simp [Usable], by decide, by decide, by decide⟩

theorem witness_ReadBitIsMostSignificantFirst :
    0 < 8 * (⟨true, 1⟩ : Descriptor).size ∧ 7 < 8 * (⟨true, 1⟩ : Descriptor).size := by decide

/-- The bits of 0x12, 0x34 as an array beside the same bytes (V-B7). -/
theorem witness_PackingAgreesWithBitAddresses :
    ∀ k, k < 8 * 1 + 8 → (machine [(0, 0x12), (1, 0x34)] [(3, true), (6, true), (10, true), (11, true), (13, true)]).bitAt k =
      (machine [(0, 0x12), (1, 0x34)] [(3, true), (6, true), (10, true), (11, true), (13, true)]).bufBit k := by decide

theorem witness_Ck5SumIsExact : 72 ≤ (⟨true, 72⟩ : Descriptor).size := by decide

theorem witness_LoopsEndAtTheirBound :
    ((2 : Nat) < 2 ^ 32 ∧ 2 ≤ (⟨true, 2⟩ : Descriptor).size ∧ 2 ≤ 2) ∧
      ((4 : Nat) < 2 ^ 32 ∧ 4 ≤ (⟨true, 4⟩ : Descriptor).size ∧ 2 ≤ 4 ∧ 4 ≤ 4) ∧
      ((24 : Nat) < 2 ^ 32 ∧ 24 ≤ 8 * (⟨true, 3⟩ : Descriptor).size ∧ 7 ≤ (machine [] []).rom9.length ∧
        24 ≤ (machine [] []).rom9.length + 9) ∧
      (0 : Nat) < 2 ^ 32 ∧ 0 ≤ (⟨true, 1⟩ : Descriptor).size ∧ 0 ≤ 8 * (⟨true, 1⟩ : Descriptor).size := by decide

/-- One operation of each kind that ends normally: V-K3 works in SUM, V-8-1 in ACC. -/
theorem witness_UnusedWorkingRegisterIsKept :
    usesSum (.ck5Compute ⟨true, 72⟩) = true ∧
      answer (exec (.ck5Compute ⟨true, 72⟩) (machine [] oneToNine)) = some (respValue 14) ∧
      usesSum (.crc8Compute ⟨true, 1⟩ 0) = false ∧
      answer (exec (.crc8Compute ⟨true, 1⟩ 0) (machine [(0, 0xAB)] [])) = some ⟨0, false, 0⟩ := by decide

theorem witness_ResetKeepsRomsAndCallerMemory : Inv (machine digits oneToNine) := witness_inv

theorem witness_ResetCannotBeToldApart : 7 ≤ (machine digits oneToNine).rom9.length := by decide

end Sys2Proof.Tests
end

section
/-! # Encoding: the operation codes and the reserved codes -/

namespace Sys2Proof

/-- A known code may stand in the `OP` field: with a literal there, `decode` computes on a command whose operand fields
are variables (30_encoding.md R52). -/
theorem decode_eq_of_op_eq {c : Command} {op : BitVec 4} (h : c.op = op) : decode c = decode { c with op := op } := by
  subst h
  rfl

/-- The decoder fails on the reserved codes and on them alone (30_encoding.md R54). -/
theorem decode_eq_error_iff {c : Command} {e : DecodeError} :
    decode c = .error e ↔ 11 ≤ c.op.toNat ∧ e = .reservedOp c.op := by
  unfold decode
  split
  case h_12 =>
    have hop : 11 ≤ c.op.toNat := by grind
    simp only [hop, true_and, Except.error.injEq, eq_comm]
  all_goals
    simp only [reduceCtorEq, false_iff]
    omega

/-- Decoding is total below the reserved codes (30_encoding.md R54). -/
theorem exists_decode_eq_ok {c : Command} (h : c.op.toNat < 11) : ∃ i, decode c = .ok i := by
  cases hd : decode c with
  | ok i => exact ⟨i, rfl⟩
  | error e => exact absurd (decode_eq_error_iff.1 hd).1 (by omega)

end Sys2Proof

namespace Sys2Proof.Machine

/-- A command the decoder refuses is taken from the port and answered by `IllegalOp` (60_exceptions.md R115). -/
theorem step_of_decode_error {s : State} {c : Command} {e : DecodeError} (hc : s.command = some c)
    (he : decode c = .error e) : step s = .next (s.accept.raise .illegalOp) := by
  simp only [step, hc, he]

/-- What taking a command and raising `IllegalOp` writes: the two ports (60_exceptions.md R110, R116). -/
theorem State.accept_raise_illegalOp (s : State) :
    s.accept.raise .illegalOp = { s with command := none, response := some ⟨4, false, 0⟩ } := rfl

end Sys2Proof.Machine

namespace Sys2Proof.Proofs

open Sys2Proof.Machine

/-- Settles O1: at each of the eleven literal codes the decoder computes the row of the table, and the reserved codes are
those it fails on. -/
theorem operationCodesSelectOperations : Obligations.OperationCodesSelectOperations := fun _ =>
  ⟨decode_eq_of_op_eq, decode_eq_of_op_eq, decode_eq_of_op_eq, decode_eq_of_op_eq, decode_eq_of_op_eq, decode_eq_of_op_eq,
    decode_eq_of_op_eq, decode_eq_of_op_eq, decode_eq_of_op_eq, decode_eq_of_op_eq, decode_eq_of_op_eq,
    fun h => decode_eq_error_iff.2 ⟨h, rfl⟩⟩

/-- Settles O7: the decoder fails on no code below 11, and its failure on a reserved code makes the step raise
`IllegalOp`, which writes the two ports only. -/
theorem reservedCodeRaisesIllegalOp : Obligations.ReservedCodeRaisesIllegalOp := fun s _ hc =>
  ⟨exists_decode_eq_ok, fun h => by
    rw [step_of_decode_error hc (decode_eq_error_iff.2 ⟨h, rfl⟩), s.accept_raise_illegalOp]⟩

end Sys2Proof.Proofs

end

section
/-! # Bit addresses: ReadBit as the shift-and-mask formula -/

namespace Sys2Proof.Machine

/-- Bit `k` of a word, read off by shifting it to the bottom and masking the rest away. -/
theorem decide_ushiftRight_and_one_eq_one {w : Nat} (hw : 0 < w) (x : BitVec w) (k : Nat) :
    decide ((x >>> k) &&& 1 = 1) = x.getLsbD k := by
  have hbit : (x >>> k).getLsbD 0 = x.getLsbD k := by simp
  rw [BitVec.ofNat_eq_ofNat, BitVec.and_one_eq_setWidth_ofBool_getLsbD, hbit]
  cases x.getLsbD k with
  | true => simp [BitVec.setWidth_ofNat_one_eq_ofNat_one_of_lt Nat.one_pos]
  | false => simp [hw.ne']

/-- The bit at address `i` by the formula of 40_bit_packer_and_roms.md R60. -/
theorem State.bufBit_eq_decide (s : State) (i : Nat) :
    s.bufBit i = decide ((s.bufByte (i / 8) >>> (7 - i % 8)) &&& 1 = 1) :=
  (decide_ushiftRight_and_one_eq_one (by decide) (s.bufByte (i / 8)) (7 - i % 8)).symm

end Sys2Proof.Machine

namespace Sys2Proof.Proofs

open Sys2Proof.Machine

/-- Settles O39: inside the buffer `ReadBit` answers the addressed bit, which is the shifted and masked byte. -/
theorem readBitIsMostSignificantFirst : Obligations.ReadBitIsMostSignificantFirst := fun _ i s hi => by
  rw [readBit_ok hi, s.bufBit_eq_decide i]

end Sys2Proof.Proofs

end

section
/-! # CRC8.COMPUTE -/

namespace Sys2Proof

/-- A count that can be presented at the port does not wrap around in the 32-bit index register. -/
theorem Instr.len_lt_of_wellFormed_crc8Compute {buf : Descriptor} {len : Nat}
    (h : (Instr.crc8Compute buf len).wellFormed = true) : len < 2 ^ 32 := by
  simp only [wellFormed, countFits, Bool.and_eq_true, decide_eq_true_eq] at h
  exact h.2

end Sys2Proof

namespace Sys2Proof.Machine

/-- The dispatch arm of `CRC8.COMPUTE` (30_encoding.md R52): its checks, then its computation. -/
theorem exec_crc8Compute (buf : Descriptor) (len : Nat) (s : State) :
    exec (.crc8Compute buf len) s = guarded (checkBytes 0 buf len) (crc8ComputeOp buf len) s := rfl

end Sys2Proof.Machine

namespace Sys2Proof.Proofs

open Sys2Proof.Machine

/-- Settles O12: each of the two failing checks raises its error, and after both the operation ends in the state that
carries the recurrence's value (`crc8ComputeOp_eq`), where only the response and the working registers moved. -/
theorem crc8ComputeFollowsTable8 : Obligations.Crc8ComputeFollowsTable8 := by
  intro buf len s hwf
  have hlen : len < 2 ^ 32 := Instr.len_lt_of_wellFormed_crc8Compute hwf
  rw [exec_crc8Compute]
  refine ⟨fun habsent => ?_, fun husable hlong => ?_, fun husable hfits => ?_⟩
  · exact guarded_some (checkBytes_absent habsent) _ s
  · exact guarded_some (checkBytes_long husable len.zero_le hlong) _ s
  · exact ⟨_, guarded_ok (checkBytes_ok husable len.zero_le hfits) (crc8ComputeOp_eq hfits hlen s),
      s.finishAcc_response _, s.finishAcc_keeps _, s.finishAcc_bufByte _⟩

end Sys2Proof.Proofs

end

section
/-! # Format B: the checks in their order, and footers of two bytes -/

namespace Sys2Proof

/-- A count that can be presented at the port does not wrap around in the 32-bit index register; the premise is what
`Instr.wellFormed` asks of every format `B` and `T` operation. -/
theorem len_lt_of_wellFormed {buf : Descriptor} {len : Nat} (h : (buf.wellFormed && countFits len) = true) :
    len < 2 ^ 32 := by
  simp only [countFits, Bool.and_eq_true, decide_eq_true_eq] at h
  exact h.2

end Sys2Proof

namespace Sys2Proof.Machine

open Sys2Proof.Safety

/-- Every path of a format `B` operation with a footer of `w` bytes (60_exceptions.md R117): its three errors in their
order, and after the checks whatever its computation guarantees. -/
theorem guarded_checkBytes_cases {w len : Nat} {buf : Descriptor} {op : State → Except Fault State} {s : State}
    {P : State → Prop} (hop : w ≤ len → len ≤ buf.size → ∃ t, op s = .ok t ∧ P t) :
    (Absent buf → guarded (checkBytes w buf len) op s = .next (s.raise .missingInput)) ∧
    (Usable buf → len < w → guarded (checkBytes w buf len) op s = .next (s.raise .rangeViolation)) ∧
    (Usable buf → w ≤ len → buf.size < len → guarded (checkBytes w buf len) op s = .next (s.raise .boundsFault)) ∧
    (Usable buf → w ≤ len → len ≤ buf.size → ∃ t, guarded (checkBytes w buf len) op s = .next t ∧ P t) := by
  refine ⟨fun habsent => ?_, fun husable hshort => ?_, fun husable hw hlong => ?_, fun husable hw hfits => ?_⟩
  · exact guarded_some (checkBytes_absent habsent) op s
  · exact guarded_some (checkBytes_footer husable hshort) op s
  · exact guarded_some (checkBytes_long husable hw hlong) op s
  · obtain ⟨t, ht, hP⟩ := hop hw hfits
    exact ⟨t, guarded_ok (checkBytes_ok husable hw hfits) ht, hP⟩

/-- What storing a footer of two bytes and answering `done` does, the addresses written out (20_memory.md R40): the
answer, the two bytes, and the frame. -/
theorem setByte_setByte_finishAcc_spec (s : State) {a b : Nat} (hab : a ≠ b) (x y : Byte) :
    let t := ((s.setByte a x).setByte b y).finishAcc respDone
    t.response = some respDone ∧
      (Memory.wf unlistedByte s.buf → t.bufByte a = x ∧ t.bufByte b = y) ∧
      KeepsAllButAcc s t ∧ ∀ c, c ≠ a → c ≠ b → t.bufByte c = s.bufByte c := by
  refine ⟨State.finishAcc_response _ _, fun hwf => ⟨?_, ?_⟩, ?_, fun c hca hcb => ?_⟩
  · rw [State.finishAcc_bufByte, State.setByte_bufByte_other _ _ hab, State.setByte_bufByte_same hwf]
  · rw [State.finishAcc_bufByte, State.setByte_bufByte_same (State.setByte_wf hwf a x)]
  · exact ((s.setByte_keeps a x).trans (State.setByte_keeps _ b y)).trans (State.finishAcc_keeps _ _)
  · rw [State.finishAcc_bufByte, State.setByte_bufByte_other _ _ hcb, State.setByte_bufByte_other _ _ hca]

end Sys2Proof.Machine

end

section
/-! # The two CCITT variants: VERIFY and EMBED -/

namespace Sys2Proof.Machine

/-! The four dispatch arms (30_encoding.md R52): the checks with the footer's two bytes, then the computation. -/

theorem exec_ccitt1Verify (buf : Descriptor) (len : Nat) (s : State) :
    exec (.ccitt1Verify buf len) s = guarded (checkBytes 2 buf len) (ccitt1VerifyOp buf len) s := rfl

theorem exec_ccitt1Embed (buf : Descriptor) (len : Nat) (s : State) :
    exec (.ccitt1Embed buf len) s = guarded (checkBytes 2 buf len) (ccitt1EmbedOp buf len) s := rfl

theorem exec_ccitt2Verify (buf : Descriptor) (len : Nat) (s : State) :
    exec (.ccitt2Verify buf len) s = guarded (checkBytes 2 buf len) (ccitt2VerifyOp buf len) s := rfl

theorem exec_ccitt2Embed (buf : Descriptor) (len : Nat) (s : State) :
    exec (.ccitt2Embed buf len) s = guarded (checkBytes 2 buf len) (ccitt2EmbedOp buf len) s := rfl

/-- Variant 1 has its low byte last (44_crc_16bit_ccitt_variants.md R86). -/
theorem pair_eq_ccitt1Footer_iff {x y : Byte} {c : Half} :
    [x, y] = ccitt1Footer c ↔ y = BitVec.extractLsb' 0 8 c ∧ x = BitVec.extractLsb' 8 8 c := by
  simp [ccitt1Footer, high_eq, low_eq, and_comm]

/-- Variant 2 has its high byte last (44_crc_16bit_ccitt_variants.md R90). -/
theorem pair_eq_ccitt2Footer_iff {x y : Byte} {c : Half} :
    [x, y] = ccitt2Footer c ↔ y = BitVec.extractLsb' 8 8 c ∧ x = BitVec.extractLsb' 0 8 c := by
  simp [ccitt2Footer, high_eq, low_eq, and_comm]

end Sys2Proof.Machine

namespace Sys2Proof.Proofs

open Sys2Proof.Machine

/-- Settles O14: after the checks the two bytes found are compared, as a list, with the footer of variant 1
(`ccitt1VerifyOp_eq`), which is the comparison byte by byte. -/
theorem ccitt1VerifyChecksFooter : Obligations.Ccitt1VerifyChecksFooter := by
  intro buf len s hwf
  have hlen : len < 2 ^ 32 := len_lt_of_wellFormed hwf
  rw [exec_ccitt1Verify]
  refine guarded_checkBytes_cases fun h2 hfits =>
    ⟨_, ccitt1VerifyOp_eq h2 hfits hlen s, ?_, s.finishAcc_keeps _, s.finishAcc_bufByte _⟩
  rw [State.finishAcc_response, ccitt1FooterOf, decide_eq_decide.2 pair_eq_ccitt1Footer_iff]

/-- Settles O15: after the checks the high byte is stored at `LEN-2` and the low byte at `LEN-1` (`ccitt1EmbedOp_eq`),
two different addresses. -/
theorem ccitt1EmbedStoresFooter : Obligations.Ccitt1EmbedStoresFooter := by
  intro buf len s hwf
  have hlen : len < 2 ^ 32 := len_lt_of_wellFormed hwf
  rw [exec_ccitt1Embed]
  refine guarded_checkBytes_cases fun h2 hfits => ⟨_, ccitt1EmbedOp_eq h2 hfits hlen s, ?_⟩
  rw [high_eq, low_eq]
  exact setByte_setByte_finishAcc_spec s (by omega) _ _

/-- Settles O16: as for variant 1, with the footer of variant 2, whose bytes are swapped. -/
theorem ccitt2VerifyChecksFooter : Obligations.Ccitt2VerifyChecksFooter := by
  intro buf len s hwf
  have hlen : len < 2 ^ 32 := len_lt_of_wellFormed hwf
  rw [exec_ccitt2Verify]
  refine guarded_checkBytes_cases fun h2 hfits =>
    ⟨_, ccitt2VerifyOp_eq h2 hfits hlen s, ?_, s.finishAcc_keeps _, s.finishAcc_bufByte _⟩
  rw [State.finishAcc_response, ccitt2FooterOf, decide_eq_decide.2 pair_eq_ccitt2Footer_iff]

/-- Settles O17: as for variant 1, with the low byte stored at `LEN-2` and the high byte at `LEN-1`. -/
theorem ccitt2EmbedStoresFooter : Obligations.Ccitt2EmbedStoresFooter := by
  intro buf len s hwf
  have hlen : len < 2 ^ 32 := len_lt_of_wellFormed hwf
  rw [exec_ccitt2Embed]
  refine guarded_checkBytes_cases fun h2 hfits => ⟨_, ccitt2EmbedOp_eq h2 hfits hlen s, ?_⟩
  rw [high_eq, low_eq]
  exact setByte_setByte_finishAcc_spec s (by omega) _ _

end Sys2Proof.Proofs

end

section
/-! # CRC32.EMBED: a footer stored byte after byte -/

namespace Sys2Proof.Machine

open Sys2Proof.Safety

/-- Each byte of a list stored from `a` on is read back at its place, in memory in canonical form. -/
theorem State.setBytes_bufByte_add {s : State} (hs : Memory.wf unlistedByte s.buf) (a : Nat) (l : List Byte) {k : Nat}
    (hk : k < l.length) : (s.setBytes a l).bufByte (a + k) = l[k] := by
  induction l generalizing s a k with
  | nil => exact absurd hk (by simp)
  | cons b l ih =>
    rw [State.setBytes]
    cases k with
    | zero => exact (State.setBytes_bufByte_other _ (.inl a.lt_succ_self)).trans (State.setByte_bufByte_same hs a b)
    | succ k =>
      have hplace : a + (k + 1) = a + 1 + k := by omega
      rw [hplace]
      exact ih (State.setByte_wf hs a b) (a + 1) (Nat.lt_of_succ_lt_succ hk)

theorem State.setBytes_keeps (s : State) (a : Nat) (l : List Byte) : KeepsAllButAcc s (s.setBytes a l) := by
  rw [State.setBytes_eq]
  exact ⟨⟨rfl, rfl, rfl, rfl, rfl⟩, rfl, fun _ => rfl⟩

/-- The dispatch arm of `CRC32.EMBED` (30_encoding.md R52): its checks, with the footer's four bytes, then its
computation. -/
theorem exec_crc32Embed (buf : Descriptor) (len : Nat) (s : State) :
    exec (.crc32Embed buf len) s = guarded (checkBytes 4 buf len) (crc32EmbedOp buf len) s := rfl

@[simp] theorem crc32FooterOf_length (s : State) (len : Nat) : (crc32FooterOf s len).length = 4 := rfl

/-- `CRC32.EMBED` inside the buffer stores its footer as a list from `LEN-4` on (45_crc_32bit.md R97). -/
theorem crc32EmbedOp_eq_setBytes {buf : Descriptor} {len : Nat} (h4 : 4 ≤ len) (hl : len ≤ buf.size)
    (hn : len < 2 ^ 32) (s : State) :
    crc32EmbedOp buf len s = .ok ((s.setBytes (len - 4) (crc32FooterOf s len)).finishAcc respDone) := by
  obtain ⟨a, rfl⟩ := Nat.exists_eq_add_of_le' h4
  rw [crc32EmbedOp_eq h4 hl hn]
  rfl

/-- The CRC32 footer stored from `LEN-4` on is its four bytes, most significant first, at `LEN-4` to `LEN-1`. -/
theorem setBytes_crc32FooterOf_bufByte {s : State} (hs : Memory.wf unlistedByte s.buf) {len : Nat} (h4 : 4 ≤ len) :
    let t := s.setBytes (len - 4) (crc32FooterOf s len)
    let c := crc32Of s.rom32 (bytesOf s (len - 4))
    t.bufByte (len - 4) = BitVec.extractLsb' 24 8 c ∧ t.bufByte (len - 3) = BitVec.extractLsb' 16 8 c ∧
      t.bufByte (len - 2) = BitVec.extractLsb' 8 8 c ∧ t.bufByte (len - 1) = BitVec.extractLsb' 0 8 c := by
  obtain ⟨a, rfl⟩ := Nat.exists_eq_add_of_le' h4
  have hbyte {k : Nat} (hk : k < 4) := State.setBytes_bufByte_add hs a (crc32FooterOf s (a + 4)) (k := k) hk
  exact ⟨(hbyte (k := 0) (by decide)).trans (byteOf_eq _ 3), (hbyte (k := 1) (by decide)).trans (byteOf_eq _ 2),
    (hbyte (k := 2) (by decide)).trans (byteOf_eq _ 1), (hbyte (k := 3) (by decide)).trans (byteOf_eq _ 0)⟩

end Sys2Proof.Machine

namespace Sys2Proof.Proofs

open Sys2Proof.Machine

/-- Settles O19: after the checks the footer is stored as a list of four bytes from `LEN-4` on
(`crc32EmbedOp_eq_setBytes`); each is read back at its place, and every byte outside these four reads as before. -/
theorem crc32EmbedStoresFooter : Obligations.Crc32EmbedStoresFooter := by
  intro buf len s hwf
  have hlen : len < 2 ^ 32 := len_lt_of_wellFormed hwf
  rw [exec_crc32Embed]
  refine guarded_checkBytes_cases fun h4 hfits => ⟨_, crc32EmbedOp_eq_setBytes h4 hfits hlen s, ?_⟩
  refine ⟨State.finishAcc_response _ _, fun hmem => ?_, ?_, fun a ha => ?_⟩
  · simp only [State.finishAcc_bufByte]
    exact setBytes_crc32FooterOf_bufByte hmem h4
  · exact (s.setBytes_keeps _ _).trans (State.finishAcc_keeps _ _)
  · have houtside : a < len - 4 ∨ len - 4 + (crc32FooterOf s len).length ≤ a := by
      rw [crc32FooterOf_length]
      omega
    rw [State.finishAcc_bufByte, State.setBytes_bufByte_other s houtside]

end Sys2Proof.Proofs

end

section
/-! # CCITTS.COMPUTE -/

namespace Sys2Proof.Machine

/-- The dispatch arm of `CCITTS.COMPUTE` (30_encoding.md R52): the checks of format `T`, then its computation. -/
theorem exec_ccittsCompute (buf : Descriptor) (bitLen : Nat) (s : State) :
    exec (.ccittsCompute buf bitLen) s = guarded (checkBitCount buf bitLen) (ccittsComputeOp buf bitLen) s := rfl

end Sys2Proof.Machine

namespace Sys2Proof.Proofs

open Sys2Proof.Machine

/-- Settles O20: each of the two failing checks raises its error, and after both the operation ends in the state that
answers the recurrence over the first `LEN` bits (`ccittsComputeOp_eq`, by induction on the bits in `bitSerialCore_eq`),
where only the response and the working registers moved. -/
theorem ccittsComputeIsBitSerial : Obligations.CcittsComputeIsBitSerial := by
  intro buf bitLen s hwf
  have hlen : bitLen < 2 ^ 32 := len_lt_of_wellFormed hwf
  rw [exec_ccittsCompute]
  refine ⟨fun habsent => ?_, fun husable hlong => ?_, fun husable hfits => ?_⟩
  · exact guarded_some (checkBitCount_absent habsent) _ s
  · exact guarded_some (checkBitCount_long husable hlong) _ s
  · exact ⟨_, guarded_ok (checkBitCount_ok husable hfits) (ccittsComputeOp_eq hfits hlen s),
      s.finishAcc_response _, s.finishAcc_keeps _, s.finishAcc_bufByte _⟩

end Sys2Proof.Proofs

end

section
/-! # What the decoder gives is well-formed -/

namespace Sys2Proof

/-- What the decoder gives can be presented at the port: each size and count it reads comes from a 32-bit field
(30_encoding.md R51). -/
theorem wellFormed_of_decode_eq_ok {c : Command} {i : Instr} (h : decode c = .ok i) : i.wellFormed = true := by
  have hfits (x : Word) : countFits x.toNat = true := decide_eq_true x.isLt
  have hbits : c.bitsDescriptor.wellFormed = true := hfits c.bitsSize
  have hbuf : (c.bufDescriptor.wellFormed && countFits c.len.toNat) = true :=
    Bool.and_eq_true_iff.2 ⟨hfits c.bufSize, hfits c.len⟩
  unfold decode at h
  split at h <;> cases h
  case h_1 | h_2 => exact hbits
  all_goals exact hbuf

end Sys2Proof

end

section
/-! # The checks of the other formats, passed -/

namespace Sys2Proof.Machine

theorem checkBits_none {bits : Descriptor} (h : checkBits bits = none) : 72 ≤ bits.size := by
  unfold checkBits at h
  split at h
  · cases h
  · split at h
    · cases h
    · exact Nat.not_lt.1 ‹_›

theorem checkBitCount_none {buf : Descriptor} {n : Nat} (h : checkBitCount buf n = none) : n ≤ 8 * buf.size := by
  unfold checkBitCount at h
  split at h
  · cases h
  · split at h
    · cases h
    · exact Nat.not_lt.1 ‹_›

theorem checkCrc9_none {n9 n : Nat} {buf : Descriptor} (h : checkCrc9 n9 buf n = none) :
    n ≤ 8 * buf.size ∧ n ≤ n9 + 9 := by
  unfold checkCrc9 at h
  split at h
  · cases h
  · rename_i hcount
    split at h
    · cases h
    · exact ⟨checkBitCount_none hcount, Nat.not_lt.1 ‹_›⟩

end Sys2Proof.Machine

end

section
/-! # The response port is written and never read -/

namespace Sys2Proof.Machine

/-- An operation whose computation does not depend on the last response does not depend on it at all: the checks read no
state, and raising an error replaces the response (60_exceptions.md R116). -/
theorem guarded_respond {failed : Option ErrorKind} {op : State → Except Fault State} {s : State} {r : Response}
    (hop : failed = none → op (s.respond r) = op s) : guarded failed op (s.respond r) = guarded failed op s := by
  cases failed with
  | some k => rfl
  | none => simp only [guarded, hop rfl]

/-- The same for a format `B` operation whose computation is an update `f` of the state that replaces the response. -/
theorem guarded_checkBytes_respond {w len : Nat} {buf : Descriptor} {op : State → Except Fault State}
    {f : State → State} (hop : w ≤ len → len ≤ buf.size → ∀ u, op u = .ok (f u)) {s : State} {r : Response}
    (hf : f (s.respond r) = f s) :
    guarded (checkBytes w buf len) op (s.respond r) = guarded (checkBytes w buf len) op s := by
  refine guarded_respond fun hc => ?_
  obtain ⟨hw, hl⟩ := checkBytes_none hc
  rw [hop hw hl, hop hw hl, hf]

/-- No operation reads the last response, and each replaces it (10_state.md R20, R21): after the checks its
computation is the same update of the two states, which differ in the response port alone. -/
theorem exec_respond {i : Instr} (hwf : i.wellFormed = true) {s : State} (h7 : 7 ≤ s.rom9.length) (r : Response) :
    exec i (s.respond r) = exec i s := by
  cases i with
  | ck5Compute bits =>
    refine guarded_respond fun hc => ?_
    have hl := checkBits_none hc
    exact (ck5ComputeOp_eq hl (s.respond r)).trans (ck5ComputeOp_eq hl s).symm
  | ck5Verify bits expected =>
    refine guarded_respond fun hc => ?_
    have hl := checkBits_none hc
    exact (ck5VerifyOp_eq hl expected (s.respond r)).trans (ck5VerifyOp_eq hl expected s).symm
  | crc9Compute buf bitLen =>
    refine guarded_respond fun hc => ?_
    obtain ⟨hl, h9⟩ := checkCrc9_none hc
    have hn := len_lt_of_wellFormed hwf
    exact (crc9ComputeOp_eq (s := s.respond r) hl hn h9 h7).trans (crc9ComputeOp_eq (s := s) hl hn h9 h7).symm
  | ccittsCompute buf bitLen =>
    refine guarded_respond fun hc => ?_
    have hl := checkBitCount_none hc
    have hn := len_lt_of_wellFormed hwf
    exact (ccittsComputeOp_eq hl hn (s.respond r)).trans (ccittsComputeOp_eq hl hn s).symm
  | crc8Compute buf len =>
    exact guarded_checkBytes_respond (fun _ hl => crc8ComputeOp_eq hl (len_lt_of_wellFormed hwf)) rfl
  | ccitt1Verify buf len =>
    exact guarded_checkBytes_respond (fun hw hl => ccitt1VerifyOp_eq hw hl (len_lt_of_wellFormed hwf)) rfl
  | ccitt1Embed buf len =>
    exact guarded_checkBytes_respond (fun hw hl => ccitt1EmbedOp_eq hw hl (len_lt_of_wellFormed hwf)) rfl
  | ccitt2Verify buf len =>
    exact guarded_checkBytes_respond (fun hw hl => ccitt2VerifyOp_eq hw hl (len_lt_of_wellFormed hwf)) rfl
  | ccitt2Embed buf len =>
    exact guarded_checkBytes_respond (fun hw hl => ccitt2EmbedOp_eq hw hl (len_lt_of_wellFormed hwf)) rfl
  | crc32Verify buf len =>
    exact guarded_checkBytes_respond (fun hw hl => crc32VerifyOp_eq hw hl (len_lt_of_wellFormed hwf)) rfl
  | crc32Embed buf len =>
    exact guarded_checkBytes_respond (fun hw hl => crc32EmbedOp_eq hw hl (len_lt_of_wellFormed hwf)) rfl

/-- A decoded command is executed with the command port freed (20_memory.md R43). -/
theorem step_of_decode_ok {s : State} {c : Command} {i : Instr} (hc : s.command = some c) (hi : decode c = .ok i) :
    step s = exec i s.accept := by
  simp only [step, hc, hi]

/-- A step that takes a command does not depend on the last response (10_state.md R21). -/
theorem step_respond {s : State} {c : Command} (hc : s.command = some c) (h7 : 7 ≤ s.rom9.length) (r : Response) :
    step (s.respond r) = step s := by
  have hc' : (s.respond r).command = some c := hc
  cases hd : decode c with
  | error e =>
    rw [step_of_decode_error hc hd, step_of_decode_error hc' hd]
    rfl
  | ok i =>
    rw [step_of_decode_ok hc hd, step_of_decode_ok hc' hd]
    exact exec_respond (s := s.accept) (wellFormed_of_decode_eq_ok hd) h7 r

end Sys2Proof.Machine

end

section
/-! # What a step that ends with an error leaves -/

namespace Sys2Proof.Machine

theorem ErrorKind.status_ne_statusOk (k : ErrorKind) : k.status ≠ statusOk := by
  cases k <;> decide

theorem NormalResponse.status_eq_statusOk {r : Response} (h : NormalResponse r) : r.status = statusOk := by
  obtain ⟨v, rfl⟩ | ⟨b, rfl⟩ | rfl := h <;> rfl

/-- A normal ending gives no error response (10_state.md R20). -/
theorem NormalResponse.ne_respError {r : Response} (h : NormalResponse r) (k : ErrorKind) :
    some r ≠ some (respError k) := by
  intro he
  have hstatus : r.status = k.status := congrArg Response.status (Option.some.inj he)
  exact k.status_ne_statusOk (hstatus.symm.trans h.status_eq_statusOk)

theorem State.raise_eq_of_response {s : State} {k l : ErrorKind} (h : (s.raise l).response = some (respError k)) :
    s.raise l = s.raise k :=
  congrArg s.respond (Option.some.inj h)

/-- An operation that answers an error has raised it and done nothing else (60_exceptions.md R116). -/
theorem ExecCase.eq_raise {i : Instr} {s t : State} (h : ExecCase i s t) {k : ErrorKind}
    (hr : t.response = some (respError k)) : t = s.raise k := by
  cases h with
  | error l => exact State.raise_eq_of_response hr
  | sum r hnormal => exact absurd hr (hnormal.ne_respError k)
  | acc r hnormal => exact absurd hr (hnormal.ne_respError k)
  | embed => exact absurd hr (NormalResponse.ne_respError (.inr (.inr rfl)) k)

/-- A command that ends with an error frees the command port and gives the error response, and nothing else
(60_exceptions.md R116). -/
theorem step_eq_raise {s t : State} {c : Command} {k : ErrorKind} (hc : s.command = some c) (h : step s = .next t)
    (hr : t.response = some (respError k)) : t = s.accept.raise k := by
  obtain ⟨hidle, -⟩ | ⟨_, _, -, -, rfl⟩ | ⟨_, _, -, -, hcase⟩ := step_next h
  · exact absurd (hidle.symm.trans hc) (by simp)
  · exact State.raise_eq_of_response hr
  · exact hcase.eq_raise hr

end Sys2Proof.Machine

namespace Sys2Proof.Proofs

open Sys2Proof.Machine

/-- Settles O23: the failing command leaves the error response and nothing else (`step_eq_raise`), and no step that
takes a command depends on the response it finds (`step_respond`); with the failing command itself issued next, that is
the same failure. -/
theorem errorLeavesNothingBehind : Obligations.ErrorLeavesNothingBehind := by
  intro s t c k h7 hstep hr
  have ht : t = (s.issue c).accept.raise k := step_eq_raise rfl hstep hr
  have hnext (d : Command) : step (t.issue d) = step (s.issue d) := by
    have hissue : t.issue d = (s.issue d).respond (respError k) := by
      rw [ht]
      rfl
    rw [hissue]
    exact step_respond (s.issue_command d) h7 (respError k)
  exact ⟨hnext, (hnext c).trans hstep⟩

end Sys2Proof.Proofs

end

section
/-! # Encoding: the decoder and the encoder agree on every field of a format -/

namespace Sys2Proof

/-- A count below 2^32 comes back whole from a 32-bit field or register. -/
theorem toNat_ofNat_of_lt {n : Nat} (h : n < 2 ^ 32) : (BitVec.ofNat 32 n).toNat = n :=
  (BitVec.toNat_ofNat n 32).trans (Nat.mod_eq_of_lt h)

theorem toNat_ofNat_of_countFits {n : Nat} (h : countFits n = true) : (BitVec.ofNat 32 n).toNat = n :=
  toNat_ofNat_of_lt (of_decide_eq_true h)

/-- A descriptor that fits its fields is presented whole in formats `A` and `AX` (30_encoding.md R51): any instruction
read from the fields is the one of the operand. -/
theorem Command.read_ofBits (mk : Descriptor → Instr) {bits : Descriptor} (h : bits.wellFormed = true) (op : BitVec 4)
    (expected : Word) : mk (Command.ofBits op bits expected).bitsDescriptor = mk bits :=
  congrArg (fun size => mk ⟨bits.present, size⟩) (toNat_ofNat_of_countFits h)

/-- A descriptor and a count that fit their fields are presented whole in formats `B` and `T` (30_encoding.md R51): any
instruction read from the two fields is the one of the two operands. -/
theorem Command.read_ofBuf (mk : Descriptor → Nat → Instr) {buf : Descriptor} {len : Nat}
    (h : (buf.wellFormed && countFits len) = true) (op : BitVec 4) :
    mk (Command.ofBuf op buf len).bufDescriptor (Command.ofBuf op buf len).len.toNat = mk buf len := by
  obtain ⟨hbuf, hlen⟩ := Bool.and_eq_true_iff.1 h
  have hdescriptor : (Command.ofBuf op buf len).bufDescriptor = buf :=
    congrArg (Descriptor.mk buf.present) (toNat_ofNat_of_countFits hbuf)
  have hcount : (Command.ofBuf op buf len).len.toNat = len := toNat_ofNat_of_countFits hlen
  rw [hdescriptor, hcount]

/-- The decoder reads back what the encoder presents: at the literal code it computes to the constructor, on operands
that come back whole. -/
theorem decode_encode {i : Instr} (h : i.wellFormed = true) : decode (encode i) = .ok i := by
  cases i with
  | ck5Compute bits => exact congrArg Except.ok (Command.read_ofBits .ck5Compute h _ _)
  | ck5Verify bits expected => exact congrArg Except.ok (Command.read_ofBits (.ck5Verify · expected) h _ _)
  | crc8Compute buf len => exact congrArg Except.ok (Command.read_ofBuf .crc8Compute h _)
  | crc9Compute buf bitLen => exact congrArg Except.ok (Command.read_ofBuf .crc9Compute h _)
  | ccitt1Verify buf len => exact congrArg Except.ok (Command.read_ofBuf .ccitt1Verify h _)
  | ccitt1Embed buf len => exact congrArg Except.ok (Command.read_ofBuf .ccitt1Embed h _)
  | ccitt2Verify buf len => exact congrArg Except.ok (Command.read_ofBuf .ccitt2Verify h _)
  | ccitt2Embed buf len => exact congrArg Except.ok (Command.read_ofBuf .ccitt2Embed h _)
  | crc32Verify buf len => exact congrArg Except.ok (Command.read_ofBuf .crc32Verify h _)
  | crc32Embed buf len => exact congrArg Except.ok (Command.read_ofBuf .crc32Embed h _)
  | ccittsCompute buf bitLen => exact congrArg Except.ok (Command.read_ofBuf .ccittsCompute h _)

/-- What the encoder presents for a decoded command: its code and the operands of its format (30_encoding.md R51,
R52). -/
theorem encode_of_decode_eq_ok {c : Command} {i : Instr} (h : decode c = .ok i) :
    encode i =
      if c.op.toNat < 2 then .ofBits c.op c.bitsDescriptor (if c.op.toNat = 1 then c.expected else 0)
      else .ofBuf c.op c.bufDescriptor c.len.toNat := by
  have hop : c.op = BitVec.ofNat 4 c.op.toNat := by simp
  unfold decode at h
  split at h <;> cases h
  all_goals
    rename_i hcode
    rw [hcode] at hop ⊢
    rw [hop]
    rfl

theorem Command.ofBits_bits_fields (op : BitVec 4) (c : Command) (expected : Word) :
    (Command.ofBits op c.bitsDescriptor expected).bitsPresent = c.bitsPresent ∧
      (Command.ofBits op c.bitsDescriptor expected).bitsSize = c.bitsSize :=
  ⟨rfl, by simp [Command.ofBits, Command.bitsDescriptor]⟩

theorem Command.ofBuf_buf_fields (op : BitVec 4) (c : Command) :
    (Command.ofBuf op c.bufDescriptor c.len.toNat).bufPresent = c.bufPresent ∧
      (Command.ofBuf op c.bufDescriptor c.len.toNat).bufSize = c.bufSize ∧
      (Command.ofBuf op c.bufDescriptor c.len.toNat).len = c.len :=
  ⟨rfl, by simp [Command.ofBuf, Command.bufDescriptor], by simp [Command.ofBuf]⟩

/-- The decoder reads `OP` and the fields of the format `OP` selects, and no other (10_state.md R17, R19). -/
theorem decode_congr {c d : Command} (hop : d.op = c.op)
    (hbits : c.op.toNat < 2 → d.bitsDescriptor = c.bitsDescriptor)
    (hexpected : c.op.toNat = 1 → d.expected = c.expected)
    (hbuf : 2 ≤ c.op.toNat → c.op.toNat < 11 → d.bufDescriptor = c.bufDescriptor ∧ d.len = c.len) :
    decode d = decode c := by
  unfold decode
  rw [hop]
  split
  case h_1 h => rw [hbits (by omega)]
  case h_2 h => rw [hbits (by omega), hexpected h]
  case h_12 => rfl
  all_goals
    obtain ⟨hdescriptor, hlen⟩ := hbuf (by omega) (by omega)
    rw [hdescriptor, hlen]

end Sys2Proof

namespace Sys2Proof.Machine

/-- The outcome of an issued command depends on what it decodes to alone (30_encoding.md R54). -/
theorem step_issue_congr {c d : Command} (h : decode d = decode c) (s : State) :
    step (s.issue d) = step (s.issue c) := by
  cases hc : decode c with
  | ok i => exact (step_of_decode_ok rfl (h.trans hc)).trans (step_of_decode_ok (s := s.issue c) rfl hc).symm
  | error e => exact (step_of_decode_error rfl (h.trans hc)).trans (step_of_decode_error (s := s.issue c) rfl hc).symm

end Sys2Proof.Machine

namespace Sys2Proof.Proofs

open Sys2Proof.Machine

/-- Settles O2: a count that fits 32 bits comes back whole from its field (`decode_encode`). -/
theorem decodeEncodeRoundTrip : Obligations.DecodeEncodeRoundTrip := fun _ => decode_encode

/-- Settles O3: the encoder presents the code and the format's operands again (`encode_of_decode_eq_ok`), and a field's
natural number goes back into the field unchanged. -/
theorem decodedOperandsAreThePortsFields : Obligations.DecodedOperandsAreThePortsFields := by
  intro c i hdecode
  refine ⟨wellFormed_of_decode_eq_ok hdecode, ?_⟩
  rw [encode_of_decode_eq_ok hdecode]
  by_cases hformat : c.op.toNat < 2
  · rw [if_pos hformat]
    exact ⟨rfl, fun _ => Command.ofBits_bits_fields c.op c _, fun h1 => if_pos h1, fun h2 => absurd hformat (by omega)⟩
  · rw [if_neg hformat]
    exact ⟨rfl, fun h => absurd h hformat, fun h1 => absurd h1 (by omega), fun _ => Command.ofBuf_buf_fields c.op c⟩

/-- Settles O4: commands that agree on `OP` and the format's fields decode alike (`decode_congr`). -/
theorem ignoredFieldsDoNotMatter : Obligations.IgnoredFieldsDoNotMatter := by
  intro s c d hop hbits hexpected hbuf
  refine step_issue_congr (decode_congr hop (fun h => ?_) hexpected fun h2 h11 => ?_) s
  · obtain ⟨hpresent, hsize⟩ := hbits h
    simp only [Command.bitsDescriptor, hpresent, hsize]
  · obtain ⟨hpresent, hsize, hlen⟩ := hbuf h2 h11
    simp only [Command.bufDescriptor, hpresent, hsize, hlen, and_self]

/-- Settles O5: taking the command frees the command port, and the decoded operation runs on that state. -/
theorem stepRunsDecodedOperation : Obligations.StepRunsDecodedOperation := fun _ _ _ => step_of_decode_ok

end Sys2Proof.Proofs

end

section
/-! # What an answered step keeps: the invariant, the frame, and the effect of an error -/

namespace Sys2Proof.Safety

open Sys2Proof.Machine

/-- The invariant speaks of the buffer, the bit array, ROM9 and the response port only. -/
theorem Inv.of_eq {s t : State} (h : Inv s) (hbuf : Memory.wf unlistedByte t.buf) (hbits : t.bits = s.bits)
    (hrom9 : t.rom9 = s.rom9) (hresponse : ∀ r, t.response = some r → LegalResponse r) : Inv t :=
  ⟨hbuf, hbits ▸ h.bits_wf, hrom9 ▸ h.rom9_deep, hresponse⟩

theorem SameRoms.trans {s t u : State} (h : SameRoms s t) (g : SameRoms t u) : SameRoms s u :=
  ⟨g.rom8.trans h.rom8, g.rom9.trans h.rom9, g.romC1.trans h.romC1, g.romC2.trans h.romC2, g.rom32.trans h.rom32⟩

end Sys2Proof.Safety

namespace Sys2Proof.Machine

open Sys2Proof.Safety

/-! The updates of the two ports and a reset write no ROM. -/

theorem State.raise_sameRoms (s : State) (k : ErrorKind) : SameRoms s (s.raise k) := ⟨rfl, rfl, rfl, rfl, rfl⟩

theorem State.accept_sameRoms (s : State) : SameRoms s s.accept := ⟨rfl, rfl, rfl, rfl, rfl⟩

theorem State.afterReset_sameRoms (s : State) : SameRoms s s.afterReset := ⟨rfl, rfl, rfl, rfl, rfl⟩

theorem NormalResponse.legal {r : Response} (h : NormalResponse r) : LegalResponse r := by
  obtain hvalue | hverdict | hdone := h
  · exact .inl hvalue
  · exact .inr (.inl hverdict)
  · exact .inr (.inr (.inl hdone))

/-- What every operation leaves: the ROMs, the command port, the bit array as a list, and memory in canonical form. -/
theorem ExecCase.frame {i : Instr} {s t : State} (h : ExecCase i s t) :
    SameRoms s t ∧ t.command = s.command ∧ t.bits = s.bits ∧
      (Memory.wf unlistedByte s.buf → Memory.wf unlistedByte t.buf) := by
  cases h with
  | error k => exact ⟨s.raise_sameRoms k, rfl, rfl, id⟩
  | sum r => exact ⟨(s.finishSum_keeps r).roms, rfl, rfl, id⟩
  | acc r => exact ⟨(s.finishAcc_keeps r).roms, rfl, rfl, id⟩
  | embed _ len w footer =>
    have hkeeps := (s.setBytes_keeps (len - w) footer).trans (State.finishAcc_keeps _ respDone)
    refine ⟨hkeeps.roms, hkeeps.command, ?_, fun hwf => State.setBytes_wf hwf (len - w) footer⟩
    rw [State.finishAcc_bits, State.setBytes_eq]

/-- Every operation that answers has answered an error and changed nothing else, or has ended normally. -/
theorem ExecCase.response {i : Instr} {s t : State} (h : ExecCase i s t) :
    (∃ k, t = s.raise k) ∨ ∃ r, t.response = some r ∧ NormalResponse r := by
  cases h with
  | error k => exact .inl ⟨k, rfl⟩
  | sum r hnormal => exact .inr ⟨r, rfl, hnormal⟩
  | acc r hnormal => exact .inr ⟨r, rfl, hnormal⟩
  | embed => exact .inr ⟨respDone, rfl, .inr (.inr rfl)⟩

theorem ExecCase.response_legal {i : Instr} {s t : State} (h : ExecCase i s t) :
    ∃ r, t.response = some r ∧ LegalResponse r := by
  obtain ⟨k, rfl⟩ | ⟨r, hr, hnormal⟩ := h.response
  · exact ⟨respError k, rfl, .inr (.inr (.inr ⟨k, rfl⟩))⟩
  · exact ⟨r, hr, hnormal.legal⟩

/-- A byte an operation changed lies in the footer of the Embed it is (20_memory.md R46). -/
theorem ExecCase.changed_byte {i : Instr} {s t : State} (h : ExecCase i s t) {a : Nat}
    (ha : t.bufByte a ≠ s.bufByte a) :
    ∃ buf len w, StoresFooter i buf len w ∧ w ≤ len ∧ len ≤ buf.size ∧ len - w ≤ a ∧ a < len := by
  cases h with
  | error | sum | acc => exact absurd rfl ha
  | embed buf len w footer hi hf hw hl =>
    have hinside : ¬ (a < len - w ∨ len - w + footer.length ≤ a) := fun houtside =>
      ha (s.setBytes_bufByte_other houtside)
    exact ⟨buf, len, w, hi, hw, hl, by omega, by omega⟩

/-- An operation keeps the working register it does not use: ACC or SUM (log 4). -/
theorem ExecCase.unused_register {i : Instr} {s t : State} (h : ExecCase i s t) :
    (usesSum i = true → t.acc = s.acc) ∧ (usesSum i = false → t.sum = s.sum) := by
  cases h with
  | error => exact ⟨fun _ => rfl, fun _ => rfl⟩
  | sum _ _ hi => exact ⟨fun _ => rfl, fun hnot => absurd (hi.symm.trans hnot) (by decide)⟩
  | acc _ _ hi => exact ⟨fun hsum => absurd (hi.symm.trans hsum) (by decide), fun _ => rfl⟩
  | embed _ len w footer hi =>
    refine ⟨fun hsum => absurd (hi.not_usesSum.symm.trans hsum) (by decide), fun _ => ?_⟩
    rw [State.finishAcc_sum, State.setBytes_eq]

/-- The frame of a step, idle and illegal codes included. -/
theorem step_frame {s t : State} (h : step s = .next t) :
    SameRoms s t ∧ t.bits = s.bits ∧ (Memory.wf unlistedByte s.buf → Memory.wf unlistedByte t.buf) := by
  obtain ⟨-, rfl⟩ | ⟨_, _, -, -, rfl⟩ | ⟨_, _, -, -, hcase⟩ := step_next h
  · exact ⟨⟨rfl, rfl, rfl, rfl, rfl⟩, rfl, id⟩
  · exact ⟨s.accept_sameRoms.trans (s.accept.raise_sameRoms _), rfl, id⟩
  · obtain ⟨hroms, -, hbits, hwf⟩ := hcase.frame
    exact ⟨s.accept_sameRoms.trans hroms, hbits, hwf⟩

/-- A step that takes a command frees the port and answers a response the spec allows (10_state.md R20). -/
theorem step_answers {s t : State} {c : Command} (hc : s.command = some c) (h : step s = .next t) :
    t.command = none ∧ ∃ r, t.response = some r ∧ LegalResponse r := by
  obtain ⟨hidle, -⟩ | ⟨_, _, -, -, rfl⟩ | ⟨_, _, -, -, hcase⟩ := step_next h
  · exact absurd (hidle.symm.trans hc) (by simp)
  · exact ⟨rfl, _, rfl, .inr (.inr (.inr ⟨.illegalOp, rfl⟩))⟩
  · obtain ⟨-, hcommand, -, -⟩ := hcase.frame
    exact ⟨hcommand, hcase.response_legal⟩

theorem step_of_idle {s : State} (h : s.command = none) : step s = .next s := by
  simp only [step, h]

end Sys2Proof.Machine

namespace Sys2Proof.Proofs

open Sys2Proof.Machine Sys2Proof.Safety

/-- Settles O24: the frame of a step keeps ROM9 and both canonical forms (`step_frame`), and what it puts in the response
port the spec allows (`step_answers`). -/
theorem stepKeepsInvariant : Obligations.StepKeepsInvariant := by
  intro s t hinv hstep
  obtain ⟨hroms, hbits, hwf⟩ := step_frame hstep
  refine hinv.of_eq (hwf hinv.buf_wf) hbits hroms.rom9 fun r hr => ?_
  cases hc : s.command with
  | none =>
    have hidle : s = t := Host.Outcome.next.inj ((step_of_idle hc).symm.trans hstep)
    exact hinv.response_legal r (hidle ▸ hr)
  | some c =>
    obtain ⟨-, r', hr', hlegal⟩ := step_answers hc hstep
    exact Option.some.inj (hr'.symm.trans hr) ▸ hlegal

/-- Settles O22: a response with another status than 0 is no normal ending, so the operation raised it, and raising
writes the response port only. -/
theorem failingCommandHasNoEffect : Obligations.FailingCommandHasNoEffect := by
  intro s t c r hc hstep hr hstatus
  obtain ⟨hidle, -⟩ | ⟨_, _, -, -, rfl⟩ | ⟨_, _, -, -, hcase⟩ := step_next hstep
  · exact absurd (hidle.symm.trans hc) (by simp)
  · cases hr
    rfl
  · obtain ⟨k, rfl⟩ | ⟨r', hr', hnormal⟩ := hcase.response
    · cases hr
      rfl
    · cases hr.symm.trans hr'
      exact absurd hnormal.status_eq_statusOk hstatus

/-- Settles O27: the frame of a step (`step_frame`), and a byte it changed lies in the footer of an Embed
(`ExecCase.changed_byte`), of which there are three. -/
theorem stepWritesOnlyEmbedFooters : Obligations.StepWritesOnlyEmbedFooters := by
  intro s t hstep
  obtain ⟨hroms, hbits, -⟩ := step_frame hstep
  refine ⟨hroms, fun k => congrArg (readCell unlistedBit · k) hbits, fun a ha => ?_⟩
  obtain ⟨-, rfl⟩ | ⟨_, _, -, -, rfl⟩ | ⟨c, i, hc, hi, hcase⟩ := step_next hstep
  · exact absurd rfl ha
  · exact absurd rfl ha
  · obtain ⟨buf, len, w, hstores, hw, hl, hlow, hhigh⟩ := hcase.changed_byte ha
    refine ⟨c, buf, len, hc, hl, ?_⟩
    obtain ⟨rfl, rfl⟩ | ⟨rfl, rfl⟩ | ⟨rfl, rfl⟩ := hstores
    · exact .inl ⟨hi, hw, hlow, hhigh⟩
    · exact .inr (.inl ⟨hi, hw, hlow, hhigh⟩)
    · exact .inr (.inr ⟨hi, hw, hlow, hhigh⟩)

/-- Settles O43: every way an operation can end writes at most the registers it uses (`ExecCase.unused_register`). -/
theorem unusedWorkingRegisterIsKept : Obligations.UnusedWorkingRegisterIsKept := fun _ _ _ h =>
  (exec_next h).unused_register

/-- Settles O6: with no command pending the step takes the idle branch. -/
theorem idleStepChangesNothing : Obligations.IdleStepChangesNothing := fun _ => step_of_idle

/-- Settles O8: each field is the literal the ending is defined by, and `raise` is one update of the response port. -/
theorem responseFieldsOfEveryEnding : Obligations.ResponseFieldsOfEveryEnding :=
  ⟨fun _ => rfl, fun _ => rfl, rfl, fun _ => ⟨rfl, rfl, rfl, rfl⟩⟩

end Sys2Proof.Proofs

end

section
/-! # Reset -/

namespace Sys2Proof.Machine

theorem romRead_ofFn {w : Nat} (table : Byte → BitVec w) (i : Byte) :
    romRead (Vector.ofFn fun k : Fin 256 => table (BitVec.ofNat 8 k.val)) i = table i := by
  simp [romRead]

theorem State.reset_rom9_length : State.reset.rom9.length = Config.n9 := by
  simp [State.reset]

theorem Config.seven_le_n9 : 7 ≤ Config.n9 := Nat.le_add_right 7 Config.n9Excess

end Sys2Proof.Machine

namespace Sys2Proof.Proofs

open Sys2Proof.Machine Sys2Proof.Safety

/-- Settles O9: each ROM is built from its table word by word, and ROM9 has 7 words and the excess. -/
theorem resetIsIdleWithRomsValid : Obligations.ResetIsIdleWithRomsValid :=
  ⟨rfl, rfl, romRead_ofFn Config.table8, romRead_ofFn Config.table1, romRead_ofFn Config.table2,
    romRead_ofFn Config.table32, State.reset_rom9_length, Config.seven_le_n9, fun i hi => by simp [State.reset, hi]⟩

/-- Settles O25: the caller's memory has nothing listed, ROM9 has `N9` words, and no response is pending. -/
theorem resetMeetsInvariant : Obligations.ResetMeetsInvariant where
  buf_wf := State.reset_buf_wf
  bits_wf := State.reset_bits_wf
  rom9_deep := Config.seven_le_n9.trans State.reset_rom9_length.ge
  response_legal := fun _ h => absurd h (by simp [State.reset])

/-- Settles O44: a reset writes the working registers and the two ports only, and the invariant speaks of neither but the
response port, which is empty. -/
theorem resetKeepsRomsAndCallerMemory : Obligations.ResetKeepsRomsAndCallerMemory := fun s =>
  ⟨rfl, rfl, s.afterReset_sameRoms, rfl, rfl, fun hinv => hinv.of_eq hinv.buf_wf rfl rfl (by simp)⟩

end Sys2Proof.Proofs

end

section
/-! # What every operation answers: its checks in their order, and the exact state it ends in -/

namespace Sys2Proof.Machine

open Sys2Proof.Safety

/-- The checks of an operation, all formats together; `n9` is the depth of ROM9 (60_exceptions.md R117). -/
def checks (n9 : Nat) : Instr → Option ErrorKind
  | .ck5Compute bits | .ck5Verify bits _ => checkBits bits
  | .crc8Compute buf len => checkBytes 0 buf len
  | .crc9Compute buf bitLen => checkCrc9 n9 buf bitLen
  | .ccitt1Verify buf len | .ccitt1Embed buf len | .ccitt2Verify buf len | .ccitt2Embed buf len =>
    checkBytes 2 buf len
  | .crc32Verify buf len | .crc32Embed buf len => checkBytes 4 buf len
  | .ccittsCompute buf bitLen => checkBitCount buf bitLen

/-- The computation of an operation after its checks. -/
def computation : Instr → State → Except Fault State
  | .ck5Compute bits => ck5ComputeOp bits
  | .ck5Verify bits expected => ck5VerifyOp bits expected
  | .crc8Compute buf len => crc8ComputeOp buf len
  | .crc9Compute buf bitLen => crc9ComputeOp buf bitLen
  | .ccitt1Verify buf len => ccitt1VerifyOp buf len
  | .ccitt1Embed buf len => ccitt1EmbedOp buf len
  | .ccitt2Verify buf len => ccitt2VerifyOp buf len
  | .ccitt2Embed buf len => ccitt2EmbedOp buf len
  | .crc32Verify buf len => crc32VerifyOp buf len
  | .crc32Embed buf len => crc32EmbedOp buf len
  | .ccittsCompute buf bitLen => ccittsComputeOp buf bitLen

theorem exec_eq_guarded (i : Instr) (s : State) :
    exec i s = guarded (checks s.rom9.length i) (computation i) s := by
  cases i <;> rfl

section
variable {n9 : Nat} {i : Instr}

theorem checks_absent (h : Absent (requiredInput i)) : checks n9 i = some .missingInput := by
  cases i with
  | ck5Compute | ck5Verify => exact checkBits_absent h
  | crc9Compute => exact checkCrc9_absent h
  | ccittsCompute => exact checkBitCount_absent h
  | _ => exact checkBytes_absent h

theorem checks_footerTooWide (hu : Usable (requiredInput i)) (h : FooterTooWide i) :
    checks n9 i = some .rangeViolation := by
  cases i with
  | ck5Compute | ck5Verify | crc8Compute | crc9Compute | ccittsCompute => exact h.elim
  | _ => exact checkBytes_footer hu h

theorem checks_extentTooLong (hu : Usable (requiredInput i)) (hf : ¬ FooterTooWide i) (h : ExtentTooLong n9 i) :
    checks n9 i = some .boundsFault := by
  cases i with
  | ck5Compute | ck5Verify => exact checkBits_short hu h
  | crc8Compute => exact checkBytes_long hu (Nat.zero_le _) h
  | crc9Compute => exact checkCrc9_long hu h
  | ccittsCompute => exact checkBitCount_long hu h
  | _ => exact checkBytes_long hu (Nat.not_lt.1 hf) h

theorem checks_admitted (h : Admitted n9 i) : checks n9 i = none := by
  obtain ⟨hu, hf, hl⟩ := h
  cases i with
  | ck5Compute | ck5Verify => exact checkBits_ok hu (Nat.not_lt.1 hl)
  | crc8Compute => exact checkBytes_ok hu (Nat.zero_le _) (Nat.not_lt.1 hl)
  | crc9Compute =>
    obtain ⟨hbuf, htable⟩ := not_or.1 hl
    exact checkCrc9_ok hu (Nat.not_lt.1 hbuf) (Nat.not_lt.1 htable)
  | ccittsCompute => exact checkBitCount_ok hu (Nat.not_lt.1 hl)
  | _ => exact checkBytes_ok hu (Nat.not_lt.1 hf) (Nat.not_lt.1 hl)

/-- An operation fails its checks or is admitted. -/
theorem checks_eq_some_or_admitted (n9 : Nat) (i : Instr) : (∃ k, checks n9 i = some k) ∨ Admitted n9 i := by
  by_cases habsent : Absent (requiredInput i)
  · exact .inl ⟨_, checks_absent habsent⟩
  have hu := usable_iff.2 habsent
  by_cases hf : FooterTooWide i
  · exact .inl ⟨_, checks_footerTooWide hu hf⟩
  by_cases hl : ExtentTooLong n9 i
  · exact .inl ⟨_, checks_extentTooLong hu hf hl⟩
  · exact .inr ⟨hu, hf, hl⟩

theorem admitted_of_checks_eq_none (h : checks n9 i = none) : Admitted n9 i :=
  (checks_eq_some_or_admitted n9 i).resolve_left (by simp [h])

end

/-- What the loop of an operation needs beside its checks: a count that fits the index register
(93_implementation_defined.md U19), and for CRC9 the seven words of ROM9 (43_crc_9bit.md R81). -/
def LoopServed (s : State) : Instr → Prop
  | .ck5Compute _ | .ck5Verify _ _ => True
  | .crc9Compute _ bitLen => bitLen < 2 ^ 32 ∧ 7 ≤ s.rom9.length
  | .crc8Compute _ len | .ccitt1Verify _ len | .ccitt1Embed _ len | .ccitt2Verify _ len | .ccitt2Embed _ len
  | .crc32Verify _ len | .crc32Embed _ len | .ccittsCompute _ len => len < 2 ^ 32

theorem loopServed_of_wellFormed {i : Instr} (h : i.wellFormed = true) {s : State} (h7 : 7 ≤ s.rom9.length) :
    LoopServed s i := by
  cases i with
  | ck5Compute | ck5Verify => exact trivial
  | crc9Compute => exact ⟨len_lt_of_wellFormed h, h7⟩
  | _ => exact len_lt_of_wellFormed h

/-- The last `w` of the first `len` bytes of the buffer: where a footer stands (20_memory.md R37). -/
def footerFound (s : State) (len w : Nat) : List Byte := (List.range' (len - w) w).map s.bufByte

/-- The response of an operation that is admitted. -/
def answer : Instr → State → Response
  | .ck5Compute _, s => respValue (BitVec.ofNat 32 (modularSum (groupsOf s)))
  | .ck5Verify _ expected, s => respVerdict (decide (modularSum (groupsOf s) = expected.toNat))
  | .crc8Compute _ len, s => respValue ((crc8Of s.rom8 (bytesOf s len)).setWidth 32)
  | .crc9Compute _ bitLen, s => respValue ((crc9Of s.rom9 (crc9Positions s bitLen)).setWidth 32)
  | .ccitt1Verify _ len, s => respVerdict (decide (footerFound s len 2 = ccitt1FooterOf s len))
  | .ccitt2Verify _ len, s => respVerdict (decide (footerFound s len 2 = ccitt2FooterOf s len))
  | .crc32Verify _ len, s => respVerdict (decide (footerFound s len 4 = crc32FooterOf s len))
  | .ccittsCompute _ bitLen, s => respValue ((bitSerialOf (bitsOf s bitLen)).setWidth 32)
  | .ccitt1Embed _ _, _ | .ccitt2Embed _ _, _ | .crc32Embed _ _, _ => respDone

/-- The footer an operation stores, if it is an Embed. -/
def storedFooter : Instr → State → List Byte
  | .ccitt1Embed _ len, s => ccitt1FooterOf s len
  | .ccitt2Embed _ len, s => ccitt2FooterOf s len
  | .crc32Embed _ len, s => crc32FooterOf s len
  | _, _ => []

/-- Where an operation stores its footer, if it is an Embed. -/
def footerStart : Instr → Nat
  | .ccitt1Embed _ len | .ccitt2Embed _ len => len - 2
  | .crc32Embed _ len => len - 4
  | _ => 0

/-- The state an operation ends in when it is admitted. -/
def ending (i : Instr) (s : State) : State :=
  if usesSum i then s.finishSum (answer i s)
  else (s.setBytes (footerStart i) (storedFooter i s)).finishAcc (answer i s)

@[simp] theorem ending_response (i : Instr) (s : State) : (ending i s).response = some (answer i s) := by
  unfold ending
  split <;> rfl

theorem answer_status (i : Instr) (s : State) : (answer i s).status = 0 := by
  cases i <;> rfl

/-- The computation of an admitted operation, one law of `Laws/Operations.lean` per operation. -/
theorem computation_eq_ending {i : Instr} {s : State} (hs : LoopServed s i) (h : Admitted s.rom9.length i) :
    computation i s = .ok (ending i s) := by
  obtain ⟨-, hf, hl⟩ := h
  cases i with
  | ck5Compute => exact ck5ComputeOp_eq (Nat.not_lt.1 hl) s
  | ck5Verify => exact ck5VerifyOp_eq (Nat.not_lt.1 hl) _ s
  | crc8Compute => exact crc8ComputeOp_eq (Nat.not_lt.1 hl) hs s
  | crc9Compute =>
    obtain ⟨hbuf, htable⟩ := not_or.1 hl
    obtain ⟨hn, h7⟩ := hs
    exact crc9ComputeOp_eq (Nat.not_lt.1 hbuf) hn (Nat.not_lt.1 htable) h7
  | ccittsCompute => exact ccittsComputeOp_eq (Nat.not_lt.1 hl) hs s
  | crc32Embed => exact crc32EmbedOp_eq_setBytes (Nat.not_lt.1 hf) (Nat.not_lt.1 hl) hs s
  | ccitt1Verify _ len =>
    obtain ⟨a, rfl⟩ := Nat.exists_eq_add_of_le' (Nat.not_lt.1 hf)
    exact ccitt1VerifyOp_eq (Nat.le_add_left 2 a) (Nat.not_lt.1 hl) hs s
  | ccitt2Verify _ len =>
    obtain ⟨a, rfl⟩ := Nat.exists_eq_add_of_le' (Nat.not_lt.1 hf)
    exact ccitt2VerifyOp_eq (Nat.le_add_left 2 a) (Nat.not_lt.1 hl) hs s
  | crc32Verify _ len =>
    obtain ⟨a, rfl⟩ := Nat.exists_eq_add_of_le' (Nat.not_lt.1 hf)
    exact crc32VerifyOp_eq (Nat.le_add_left 4 a) (Nat.not_lt.1 hl) hs s
  | ccitt1Embed _ len =>
    obtain ⟨a, rfl⟩ := Nat.exists_eq_add_of_le' (Nat.not_lt.1 hf)
    exact ccitt1EmbedOp_eq (Nat.le_add_left 2 a) (Nat.not_lt.1 hl) hs s
  | ccitt2Embed _ len =>
    obtain ⟨a, rfl⟩ := Nat.exists_eq_add_of_le' (Nat.not_lt.1 hf)
    exact ccitt2EmbedOp_eq (Nat.le_add_left 2 a) (Nat.not_lt.1 hl) hs s

/-! The four ways of 60_exceptions.md R117 that an operation can go. -/

section
variable {i : Instr} {s : State}

theorem exec_of_checks_eq_some {k : ErrorKind} (h : checks s.rom9.length i = some k) : exec i s = .next (s.raise k) :=
  (exec_eq_guarded i s).trans (guarded_some h _ s)

theorem exec_absent (h : Absent (requiredInput i)) : exec i s = .next (s.raise .missingInput) :=
  exec_of_checks_eq_some (checks_absent h)

theorem exec_footerTooWide (hu : Usable (requiredInput i)) (h : FooterTooWide i) :
    exec i s = .next (s.raise .rangeViolation) :=
  exec_of_checks_eq_some (checks_footerTooWide hu h)

theorem exec_extentTooLong (hu : Usable (requiredInput i)) (hf : ¬ FooterTooWide i)
    (h : ExtentTooLong s.rom9.length i) : exec i s = .next (s.raise .boundsFault) :=
  exec_of_checks_eq_some (checks_extentTooLong hu hf h)

theorem exec_admitted (hs : LoopServed s i) (h : Admitted s.rom9.length i) : exec i s = .next (ending i s) :=
  (exec_eq_guarded i s).trans (guarded_ok (checks_admitted h) (computation_eq_ending hs h))

/-- An operation whose loop is served answers a next state: no fault, no refusal. -/
theorem exec_isNext (hs : LoopServed s i) : ∃ t, exec i s = .next t := by
  obtain ⟨k, hk⟩ | h := checks_eq_some_or_admitted s.rom9.length i
  · exact ⟨_, exec_of_checks_eq_some hk⟩
  · exact ⟨_, exec_admitted hs h⟩

end

end Sys2Proof.Machine

namespace Sys2Proof.Proofs

open Sys2Proof.Machine Sys2Proof.Safety

/-- Settles O21: a reserved code is answered by the step, and each of the other three errors by the check of the decoded
operation that fails first; when none fails the operation ends in `ending`, with a response of status 0. -/
theorem firstApplicableErrorIsReported : Obligations.FirstApplicableErrorIsReported := by
  intro s c hc h7
  refine ⟨fun e he => step_of_decode_error hc he, fun i hi => ?_⟩
  have hserved : LoopServed s.accept i := loopServed_of_wellFormed (wellFormed_of_decode_eq_ok hi) h7
  rw [step_of_decode_ok hc hi]
  refine ⟨exec_absent, exec_footerTooWide, exec_extentTooLong (s := s.accept), fun hadmitted => ?_⟩
  have hexec : exec i s.accept = .next (ending i s.accept) := exec_admitted hserved hadmitted
  obtain ⟨-, hcommand, -, -⟩ := (exec_next hexec).frame
  exact ⟨_, _, hexec, ending_response i _, answer_status i _, hcommand⟩

/-- Settles O26: every command decodes to an operation that answers a next state (`exec_isNext`) or is answered
`IllegalOp`; `step_answers` says what the answer is. -/
theorem everyCommandIsAnswered : Obligations.EveryCommandIsAnswered := by
  intro s h7
  cases hc : s.command with
  | none => exact ⟨s, step_of_idle hc, hc, fun _ h => nomatch h⟩
  | some c =>
    have hnext : ∃ t, step s = .next t := by
      cases hd : decode c with
      | error e => exact ⟨_, step_of_decode_error hc hd⟩
      | ok i =>
        rw [step_of_decode_ok hc hd]
        exact exec_isNext (loopServed_of_wellFormed (wellFormed_of_decode_eq_ok hd) h7)
    obtain ⟨t, ht⟩ := hnext
    obtain ⟨hcommand, hresponse⟩ := step_answers hc ht
    exact ⟨t, ht, hcommand, fun _ _ => hresponse⟩

end Sys2Proof.Proofs

end

section
/-! # CK5, CRC9.COMPUTE and CRC32.VERIFY -/

namespace Sys2Proof.Machine

open Sys2Proof.Safety

/-- A usable bit array of 72 elements or more admits `CK5.COMPUTE`, which ends with the checksum. -/
theorem exec_ck5Compute_ok {bits : Descriptor} (hu : Usable bits) (hl : 72 ≤ bits.size) (s : State) :
    exec (.ck5Compute bits) s = .next (s.finishSum (respValue (BitVec.ofNat 32 (modularSum (groupsOf s))))) :=
  exec_admitted (i := .ck5Compute bits) trivial ⟨hu, id, Nat.not_lt.2 hl⟩

/-- The same for `CK5.VERIFY`, which ends with the verdict. -/
theorem exec_ck5Verify_ok {bits : Descriptor} (hu : Usable bits) (hl : 72 ≤ bits.size) (expected : Word) (s : State) :
    exec (.ck5Verify bits expected) s =
      .next (s.finishSum (respVerdict (decide (modularSum (groupsOf s) = expected.toNat)))) :=
  exec_admitted (i := .ck5Verify bits expected) trivial ⟨hu, id, Nat.not_lt.2 hl⟩

/-- A bit count inside the buffer and the table admits `CRC9.COMPUTE`, which ends with the checksum. -/
theorem exec_crc9Compute_ok {buf : Descriptor} {bitLen : Nat} {s : State} (hu : Usable buf) (hn : bitLen < 2 ^ 32)
    (hl : bitLen ≤ 8 * buf.size) (h9 : bitLen ≤ s.rom9.length + 9) (h7 : 7 ≤ s.rom9.length) :
    exec (.crc9Compute buf bitLen) s =
      .next (s.finishAcc (respValue ((crc9Of s.rom9 (crc9Positions s bitLen)).setWidth 32))) :=
  exec_admitted (i := .crc9Compute buf bitLen) ⟨hn, h7⟩ ⟨hu, id, not_or.2 ⟨Nat.not_lt.2 hl, Nat.not_lt.2 h9⟩⟩

/-- CRC32 has its most significant byte first (45_crc_32bit.md R96). -/
theorem quad_eq_crc32Footer_iff {x y z w : Byte} {c : Word} :
    [x, y, z, w] = crc32Footer c ↔
      x = BitVec.extractLsb' 24 8 c ∧ y = BitVec.extractLsb' 16 8 c ∧ z = BitVec.extractLsb' 8 8 c ∧
        w = BitVec.extractLsb' 0 8 c := by
  simp [crc32Footer, byteOf_eq]

theorem exec_crc32Verify (buf : Descriptor) (len : Nat) (s : State) :
    exec (.crc32Verify buf len) s = guarded (checkBytes 4 buf len) (crc32VerifyOp buf len) s := rfl

/-- The 5-bit checksum is at most 30 (41_modular_checksum_5bit.md, corner cases). -/
theorem modularSum_lt (l : List Byte) : modularSum l < 31 := Nat.mod_lt _ (by decide)

/-- A 5-bit checksum fits the response's `VALUE`. -/
theorem toNat_ofNat_modularSum (l : List Byte) : (BitVec.ofNat 32 (modularSum l)).toNat = modularSum l :=
  toNat_ofNat_of_lt ((modularSum_lt l).trans (by decide))

/-- A position inside the skip window selects no entry (43_crc_9bit.md R82). -/
theorem crc9Positions_succ_of_window (s : State) {n : Nat} (h7 : 7 ≤ n) (h15 : n ≤ 15) :
    crc9Positions s (n + 1) = crc9Positions s n := by
  have hwindow : (decide (n < 7) || decide (15 < n)) = false := by
    simp only [Bool.or_eq_false_iff, decide_eq_false_iff_not]
    omega
  rw [crc9Positions_succ, hwindow, Bool.and_false]
  exact List.append_nil _

theorem crc9Positions_of_window (s : State) {n : Nat} (h7 : 7 ≤ n) (h16 : n ≤ 16) :
    crc9Positions s n = crc9Positions s 7 := by
  induction n, h7 using Nat.le_induction with
  | base => rfl
  | succ n h7 ih => exact (crc9Positions_succ_of_window s h7 (by omega)).trans (ih (by omega))

end Sys2Proof.Machine

namespace Sys2Proof.Proofs

open Sys2Proof.Machine Sys2Proof.Safety

/-- Settles O10: the two failing checks, and after both the operation ends with the checksum (`exec_ck5Compute_ok`), which
only the working registers and the response port show. -/
theorem ck5ComputeIsByteSumMod31 : Obligations.Ck5ComputeIsByteSumMod31 := fun bits s =>
  ⟨exec_absent (i := .ck5Compute bits), fun hu hl => exec_extentTooLong (i := .ck5Compute bits) hu id hl,
    fun hu hl => ⟨_, exec_ck5Compute_ok hu hl s, s.finishSum_response _, s.finishSum_keeps _⟩⟩

/-- Settles O11: as for `CK5.COMPUTE`, with the verdict on the checksum and the whole `EXPECTED`. -/
theorem ck5VerifyComparesWholeValue : Obligations.Ck5VerifyComparesWholeValue := fun bits expected s =>
  ⟨exec_absent (i := .ck5Verify bits expected),
    fun hu hl => exec_extentTooLong (i := .ck5Verify bits expected) hu id hl,
    fun hu hl => ⟨_, exec_ck5Verify_ok hu hl expected s, s.finishSum_response _, s.finishSum_keeps _⟩⟩

/-- Settles O13: the two failing checks, the second for the buffer or the table, and after both the operation ends with
the exclusive or over the selected positions (`exec_crc9Compute_ok`). -/
theorem crc9ComputeXorsSetBitsOutsideWindow : Obligations.Crc9ComputeXorsSetBitsOutsideWindow := fun buf bitLen s hwf =>
  ⟨exec_absent (i := .crc9Compute buf bitLen),
    fun hu hl => exec_extentTooLong (i := .crc9Compute buf bitLen) hu id hl,
    fun hu hl h9 h7 => ⟨_, exec_crc9Compute_ok hu (len_lt_of_wellFormed hwf) hl h9 h7, s.finishAcc_response _,
      s.finishAcc_keeps _, s.finishAcc_bufByte _⟩⟩

/-- Settles O18: after the checks the four bytes found are compared, as a list, with the footer of CRC32
(`crc32VerifyOp_eq`), which is the comparison byte by byte. -/
theorem crc32VerifyChecksFooter : Obligations.Crc32VerifyChecksFooter := by
  intro buf len s hwf
  have hlen : len < 2 ^ 32 := len_lt_of_wellFormed hwf
  rw [exec_crc32Verify]
  refine guarded_checkBytes_cases fun h4 hfits =>
    ⟨_, crc32VerifyOp_eq h4 hfits hlen s, ?_, s.finishAcc_keeps _, s.finishAcc_bufByte _⟩
  rw [State.finishAcc_response, crc32FooterOf, decide_eq_decide.2 quad_eq_crc32Footer_iff]

/-- Settles O36: the checksum is a remainder modulo 31, so no larger `EXPECTED` equals it. -/
theorem ck5ResultAtMost30 : Obligations.Ck5ResultAtMost30 := by
  intro bits s hu hl
  have hlt : modularSum (groupsOf s) < 31 := modularSum_lt (groupsOf s)
  refine ⟨⟨_, _, exec_ck5Compute_ok hu hl s, s.finishSum_response _, ?_⟩,
    fun e he => ⟨_, exec_ck5Verify_ok hu hl e s, ?_⟩⟩
  · rw [toNat_ofNat_modularSum]
    omega
  · rw [State.finishSum_response, decide_eq_false (by omega)]

/-- Settles O38: the positions from 7 to 15 select no entry (`crc9Positions_of_window`), so every count up to 16 selects
those of count 7. -/
theorem crc9CountsSevenToSixteenAgree : Obligations.Crc9CountsSevenToSixteenAgree := by
  intro buf bitLen s hu h7 hlow hhigh hl
  refine ⟨_, _, exec_crc9Compute_ok hu (by decide) (by omega) (by omega) h7,
    exec_crc9Compute_ok hu (by omega) hl (by omega) h7, ?_⟩
  rw [State.finishAcc_response, State.finishAcc_response, crc9Positions_of_window s hlow hhigh]

end Sys2Proof.Proofs

end

section
/-! # The bit_packer, and the working registers at the end of a loop -/

namespace Sys2Proof.Machine

open Sys2Proof.Safety

/-- Bit `7 - j` of a packed byte is the bit packed in place `j` (40_bit_packer_and_roms.md R61). -/
theorem packByte_getLsbD (f : Nat → Bool) {j : Nat} (hj : j < 8) : (packByte f).getLsbD (7 - j) = f j := by
  unfold packByte
  change BitVec.getLsbD (w := 1 + 1 + 1 + 1 + 1 + 1 + 1 + 1) _ _ = _
  simp only [BitVec.getLsbD_append]
  interval_cases j <;> simp

theorem State.packedAt_getLsbD (s : State) (k : Nat) {j : Nat} (hj : j < 8) :
    (s.packedAt k).getLsbD (7 - j) = s.bitAt (k + j) :=
  packByte_getLsbD (fun j => s.bitAt (k + j)) hj

/-- Bit address `8g + j` is bit `7 - j` of byte `g` (40_bit_packer_and_roms.md R60). -/
theorem State.bufBit_mul_add (s : State) (g : Nat) {j : Nat} (hj : j < 8) :
    s.bufBit (8 * g + j) = (s.bufByte g).getLsbD (7 - j) := by
  have hbyte : (8 * g + j) / 8 = g := by omega
  have hbit : (8 * g + j) % 8 = j := by omega
  rw [State.bufBit, hbyte, hbit]

/-- A checksum narrower than ACC leaves ACC below two to its width (10_state.md R13). -/
theorem toNat_setWidth_lt {w : Nat} (v : BitVec w) (n : Nat) : (v.setWidth n).toNat < 2 ^ w := by
  rw [BitVec.toNat_setWidth]
  exact (Nat.mod_le _ _).trans_lt v.isLt

end Sys2Proof.Machine

namespace Sys2Proof.Proofs

open Sys2Proof.Machine Sys2Proof.Safety

/-- Settles O40: the order of the bits inside a packed byte and inside a byte of the buffer is the same, so where the bits
agree the bytes do, bit by bit. -/
theorem packingAgreesWithBitAddresses : Obligations.PackingAgreesWithBitAddresses := by
  refine ⟨fun s k j => s.packedAt_getLsbD k, fun s g hbits => BitVec.eq_of_getLsbD_eq fun i hi => ?_⟩
  have hi7 : 7 - (7 - i) = i := by omega
  have hplace : 7 - i < 8 := by omega
  calc (s.packedAt (8 * g)).getLsbD i
      = s.bitAt (8 * g + (7 - i)) := by rw [← s.packedAt_getLsbD (8 * g) hplace, hi7]
    _ = s.bufBit (8 * g + (7 - i)) := hbits _ (by omega)
    _ = (s.bufByte g).getLsbD i := by rw [s.bufBit_mul_add g hplace, hi7]

/-- Settles O41: nine bytes sum to at most 2295, which SUM's twelve bits hold (`ck5Sum_eq`, `groupsOf_sum_le`). -/
theorem ck5SumIsExact : Obligations.Ck5SumIsExact := by
  intro bits s hl
  have hle := groupsOf_sum_le s
  have hexact : (BitVec.ofNat 12 ((groupsOf s).map BitVec.toNat).sum).toNat = ((groupsOf s).map BitVec.toNat).sum :=
    (BitVec.toNat_ofNat _ 12).trans (Nat.mod_eq_of_lt (hle.trans_lt (by decide)))
  exact ⟨_, ck5Sum_eq hl s, hexact, hexact.trans_le hle, rfl⟩

/-- Settles O42: the exact end state of each core names IDX and ACC. -/
theorem loopsEndAtTheirBound : Obligations.LoopsEndAtTheirBound := by
  intro buf n s hn
  have hidx {m : Nat} (hm : m ≤ n) : (BitVec.ofNat 32 m).toNat = m := toNat_ofNat_of_lt (hm.trans_lt hn)
  refine ⟨fun hl => ⟨?_, fun _ => ⟨?_, ?_⟩, fun _ => ?_⟩, fun hl => ⟨fun h7 h9 => ?_, ?_⟩⟩
  · exact ⟨_, crc8Core_eq hl hn s, hidx n.le_refl, toNat_setWidth_lt _ 32⟩
  · exact ⟨_, ccitt1Core_eq hl hn s, hidx (n.sub_le 2), toNat_setWidth_lt _ 32⟩
  · exact ⟨_, ccitt2Core_eq hl hn s, hidx (n.sub_le 2), toNat_setWidth_lt _ 32⟩
  · exact ⟨_, crc32Core_eq hl hn s, hidx (n.sub_le 4)⟩
  · exact ⟨_, crc9Core_eq hl hn h9 h7, hidx n.le_refl, toNat_setWidth_lt _ 32⟩
  · exact ⟨_, bitSerialCore_eq hl hn s, hidx n.le_refl, toNat_setWidth_lt _ 32⟩

end Sys2Proof.Proofs

end

section
/-! # What an operation reads: its extent and the ROM of its family -/

namespace Sys2Proof.Machine

open Sys2Proof.Safety

/-- Two states agree on what the operation reads: the ROM of its family, and its extent without the footer an Embed
overwrites and without the skip window of CRC9 (20_memory.md R41, 43_crc_9bit.md R82). -/
def AgreeOnExtent (s u : State) : Instr → Prop
  | .ck5Compute _ | .ck5Verify _ _ => ∀ k, k < 72 → u.bitAt k = s.bitAt k
  | .crc8Compute _ len => u.rom8 = s.rom8 ∧ ∀ a, a < len → u.bufByte a = s.bufByte a
  | .crc9Compute _ bitLen => u.rom9 = s.rom9 ∧ ∀ i, i < bitLen → i < 7 ∨ 15 < i → u.bufBit i = s.bufBit i
  | .ccitt1Verify _ len => u.romC1 = s.romC1 ∧ ∀ a, a < len → u.bufByte a = s.bufByte a
  | .ccitt1Embed _ len => u.romC1 = s.romC1 ∧ ∀ a, a < len - 2 → u.bufByte a = s.bufByte a
  | .ccitt2Verify _ len => u.romC2 = s.romC2 ∧ ∀ a, a < len → u.bufByte a = s.bufByte a
  | .ccitt2Embed _ len => u.romC2 = s.romC2 ∧ ∀ a, a < len - 2 → u.bufByte a = s.bufByte a
  | .crc32Verify _ len => u.rom32 = s.rom32 ∧ ∀ a, a < len → u.bufByte a = s.bufByte a
  | .crc32Embed _ len => u.rom32 = s.rom32 ∧ ∀ a, a < len - 4 → u.bufByte a = s.bufByte a
  | .ccittsCompute _ bitLen => ∀ i, i < bitLen → u.bufBit i = s.bufBit i

section
variable {s u : State}

theorem bufBit_congr {i : Nat} (h : u.bufByte (i / 8) = s.bufByte (i / 8)) : u.bufBit i = s.bufBit i := by
  rw [State.bufBit, State.bufBit, h]

/-- States that agree on the ROMs, the bytes and the bits agree on every extent. -/
theorem agreeOnExtent_of_same (hroms : SameRoms s u) (hbytes : SameBytes s u) (hbits : SameBits s u) (i : Instr) :
    AgreeOnExtent s u i := by
  cases i with
  | ck5Compute | ck5Verify => exact fun k _ => hbits k
  | crc8Compute => exact ⟨hroms.rom8, fun a _ => hbytes a⟩
  | crc9Compute => exact ⟨hroms.rom9, fun i _ _ => bufBit_congr (hbytes (i / 8))⟩
  | ccitt1Verify | ccitt1Embed => exact ⟨hroms.romC1, fun a _ => hbytes a⟩
  | ccitt2Verify | ccitt2Embed => exact ⟨hroms.romC2, fun a _ => hbytes a⟩
  | crc32Verify | crc32Embed => exact ⟨hroms.rom32, fun a _ => hbytes a⟩
  | ccittsCompute => exact fun i _ => bufBit_congr (hbytes (i / 8))

/-! The lists a checksum is written over depend on the extent they are taken from. -/

theorem bytesOf_congr {n : Nat} (h : ∀ a, a < n → u.bufByte a = s.bufByte a) : bytesOf u n = bytesOf s n :=
  List.map_congr_left fun a ha => h a (List.mem_range.1 ha)

theorem bitsOf_congr {n : Nat} (h : ∀ i, i < n → u.bufBit i = s.bufBit i) : bitsOf u n = bitsOf s n :=
  List.map_congr_left fun i hi => h i (List.mem_range.1 hi)

theorem packedAt_congr {k : Nat} (h : ∀ j, j < 8 → u.bitAt (k + j) = s.bitAt (k + j)) :
    u.packedAt k = s.packedAt k := by
  simp only [State.packedAt, packByte, h _ (by decide : 0 < 8), h _ (by decide : 1 < 8), h _ (by decide : 2 < 8),
    h _ (by decide : 3 < 8), h _ (by decide : 4 < 8), h _ (by decide : 5 < 8), h _ (by decide : 6 < 8),
    h _ (by decide : 7 < 8)]

theorem groupsOf_congr (h : ∀ k, k < 72 → u.bitAt k = s.bitAt k) : groupsOf u = groupsOf s :=
  List.map_congr_left fun g hg => packedAt_congr fun j hj => h _ (by have := List.mem_range.1 hg; omega)

theorem crc9Positions_congr {n : Nat} (h : ∀ i, i < n → i < 7 ∨ 15 < i → u.bufBit i = s.bufBit i) :
    crc9Positions u n = crc9Positions s n := by
  refine List.filter_congr fun i hi => ?_
  by_cases hwindow : i < 7 ∨ 15 < i
  · rw [h i (List.mem_range.1 hi) hwindow]
  · obtain ⟨hlow, hhigh⟩ := not_or.1 hwindow
    simp [hlow, hhigh]

theorem footerFound_congr {len w : Nat} (hw : w ≤ len) (h : ∀ a, a < len → u.bufByte a = s.bufByte a) :
    footerFound u len w = footerFound s len w :=
  List.map_congr_left fun a ha => h a (by have := List.mem_range'_1.1 ha; omega)

theorem ccitt1FooterOf_congr {len : Nat} (hrom : u.romC1 = s.romC1)
    (h : ∀ a, a < len - 2 → u.bufByte a = s.bufByte a) : ccitt1FooterOf u len = ccitt1FooterOf s len := by
  rw [ccitt1FooterOf, ccitt1FooterOf, hrom, bytesOf_congr h]

theorem ccitt2FooterOf_congr {len : Nat} (hrom : u.romC2 = s.romC2)
    (h : ∀ a, a < len - 2 → u.bufByte a = s.bufByte a) : ccitt2FooterOf u len = ccitt2FooterOf s len := by
  rw [ccitt2FooterOf, ccitt2FooterOf, hrom, bytesOf_congr h]

theorem crc32FooterOf_congr {len : Nat} (hrom : u.rom32 = s.rom32)
    (h : ∀ a, a < len - 4 → u.bufByte a = s.bufByte a) : crc32FooterOf u len = crc32FooterOf s len := by
  rw [crc32FooterOf, crc32FooterOf, hrom, bytesOf_congr h]

variable {i : Instr}

/-- The response of an operation is a function of what it reads. -/
theorem answer_congr (h : AgreeOnExtent s u i) (hf : ¬ FooterTooWide i) : answer i u = answer i s := by
  cases i with
  | ck5Compute | ck5Verify => simp only [answer, groupsOf_congr h]
  | crc8Compute =>
    obtain ⟨hrom, hbytes⟩ := h
    simp only [answer, hrom, bytesOf_congr hbytes]
  | crc9Compute =>
    obtain ⟨hrom, hbits⟩ := h
    simp only [answer, hrom, crc9Positions_congr hbits]
  | ccitt1Verify =>
    obtain ⟨hrom, hbytes⟩ := h
    simp only [answer, footerFound_congr (Nat.not_lt.1 hf) hbytes,
      ccitt1FooterOf_congr hrom fun a ha => hbytes a (Nat.lt_of_lt_of_le ha (Nat.sub_le _ 2))]
  | ccitt2Verify =>
    obtain ⟨hrom, hbytes⟩ := h
    simp only [answer, footerFound_congr (Nat.not_lt.1 hf) hbytes,
      ccitt2FooterOf_congr hrom fun a ha => hbytes a (Nat.lt_of_lt_of_le ha (Nat.sub_le _ 2))]
  | crc32Verify =>
    obtain ⟨hrom, hbytes⟩ := h
    simp only [answer, footerFound_congr (Nat.not_lt.1 hf) hbytes,
      crc32FooterOf_congr hrom fun a ha => hbytes a (Nat.lt_of_lt_of_le ha (Nat.sub_le _ 4))]
  | ccittsCompute => simp only [answer, bitsOf_congr h]
  | ccitt1Embed | ccitt2Embed | crc32Embed => rfl

/-- The footer an Embed stores is a function of its payload and the ROM of its family. -/
theorem storedFooter_congr (h : AgreeOnExtent s u i) : storedFooter i u = storedFooter i s := by
  cases i with
  | ccitt1Embed =>
    obtain ⟨hrom, hpayload⟩ := h
    exact ccitt1FooterOf_congr hrom hpayload
  | ccitt2Embed =>
    obtain ⟨hrom, hpayload⟩ := h
    exact ccitt2FooterOf_congr hrom hpayload
  | crc32Embed =>
    obtain ⟨hrom, hpayload⟩ := h
    exact crc32FooterOf_congr hrom hpayload
  | _ => rfl

/-- The checks read no state but the depth of ROM9, and that for CRC9 only. -/
theorem checks_congr (h : AgreeOnExtent s u i) : checks u.rom9.length i = checks s.rom9.length i := by
  cases i with
  | crc9Compute => rw [h.1]
  | _ => rfl

theorem LoopServed.congr (hs : LoopServed s i) (h : AgreeOnExtent s u i) : LoopServed u i := by
  cases i with
  | crc9Compute =>
    obtain ⟨hn, h7⟩ := hs
    obtain ⟨hrom, -⟩ := h
    exact ⟨hn, hrom ▸ h7⟩
  | _ => exact hs

end

theorem ending_buf (i : Instr) (s : State) :
    (ending i s).buf = (s.setBytes (footerStart i) (storedFooter i s)).buf := by
  cases i <;> rfl

/-- Two states that agree on what an operation reads: it answers both the same, and stores the same bytes at the same
place (none when it fails or is no Embed). -/
theorem exec_agree {i : Instr} {s u : State} (h : AgreeOnExtent s u i) (hs : LoopServed s i) :
    ∃ t v, exec i s = .next t ∧ exec i u = .next v ∧ v.response = t.response ∧
      ∃ a l, t.buf = (s.setBytes a l).buf ∧ v.buf = (u.setBytes a l).buf := by
  have hchecks := checks_congr h
  obtain ⟨k, hk⟩ | hadmitted := checks_eq_some_or_admitted s.rom9.length i
  · exact ⟨_, _, exec_of_checks_eq_some hk, exec_of_checks_eq_some (hchecks.trans hk), rfl, 0, [], rfl, rfl⟩
  · have hadmitted' : Admitted u.rom9.length i :=
      admitted_of_checks_eq_none (hchecks.trans (checks_admitted hadmitted))
    have ⟨_, hf, _⟩ := hadmitted
    refine ⟨_, _, exec_admitted hs hadmitted, exec_admitted (hs.congr h) hadmitted', ?_, footerStart i,
      storedFooter i s, ending_buf i s, ?_⟩
    · rw [ending_response, ending_response, answer_congr h hf]
    · rw [ending_buf, storedFooter_congr h]

end Sys2Proof.Machine

end

section
/-! # Determinism and extents -/

namespace Sys2Proof.Machine

open Sys2Proof.Safety

theorem sameAnswer_of_agree {i : Instr} {s u : State} (hs : LoopServed s i) (h : AgreeOnExtent s u i) :
    SameAnswer (exec i s) (exec i u) := by
  obtain ⟨t, v, ht, hv, hresponse, -⟩ := exec_agree h hs
  exact ⟨t, v, ht, hv, hresponse⟩

/-- Bytes stored at the same place read the same wherever they were stored, and elsewhere where the buffers agree. -/
theorem State.setBytes_bufByte_congr {s u : State} (hs : Memory.wf unlistedByte s.buf)
    (hu : Memory.wf unlistedByte u.buf) {a x : Nat} {l : List Byte}
    (h : x < a ∨ a + l.length ≤ x → u.bufByte x = s.bufByte x) :
    (u.setBytes a l).bufByte x = (s.setBytes a l).bufByte x := by
  by_cases houtside : x < a ∨ a + l.length ≤ x
  · rw [u.setBytes_bufByte_other houtside, s.setBytes_bufByte_other houtside, h houtside]
  · obtain ⟨k, rfl⟩ := Nat.exists_eq_add_of_le (show a ≤ x by omega)
    have hk : k < l.length := by omega
    rw [State.setBytes_bufByte_add hu a l hk, State.setBytes_bufByte_add hs a l hk]

theorem State.setBytes_buf_congr {s u : State} (h : u.buf = s.buf) (a : Nat) (l : List Byte) :
    (u.setBytes a l).buf = (s.setBytes a l).buf := by
  induction l generalizing s u a with
  | nil => exact h
  | cons b l ih => exact ih (congrArg (writeCell unlistedByte · a b) h) (a + 1)

theorem bufByte_of_buf_eq {s u : State} (h : u.buf = s.buf) (a : Nat) : u.bufByte a = s.bufByte a :=
  congrArg (readCell unlistedByte · a) h

/-! What an Embed inside its buffer does: it ends with its footer stored in the last `w` of the first `len` bytes. -/

section
variable {i : Instr} {buf : Descriptor} {len w : Nat} (hi : StoresFooter i buf len w)
include hi

theorem StoresFooter.exec_eq (hu : Usable buf) (hw : w ≤ len) (hl : len ≤ buf.size) (hn : len < 2 ^ 32) (s : State) :
    exec i s = .next (ending i s) := by
  obtain ⟨rfl, rfl⟩ | ⟨rfl, rfl⟩ | ⟨rfl, rfl⟩ := hi <;>
    exact exec_admitted hn ⟨hu, Nat.not_lt.2 hw, Nat.not_lt.2 hl⟩

theorem StoresFooter.length_storedFooter (s : State) : (storedFooter i s).length = w := by
  obtain ⟨rfl, rfl⟩ | ⟨rfl, rfl⟩ | ⟨rfl, rfl⟩ := hi <;> rfl

theorem StoresFooter.ending_bufByte (s : State) (a : Nat) :
    (ending i s).bufByte a = (s.setBytes (len - w) (storedFooter i s)).bufByte a := by
  refine bufByte_of_buf_eq ?_ a
  obtain ⟨rfl, rfl⟩ | ⟨rfl, rfl⟩ | ⟨rfl, rfl⟩ := hi <;> rfl

/-- Two states that agree on the payload and the ROM of an Embed's family hold the same first `len` bytes after it. -/
theorem StoresFooter.ending_bufByte_congr {s u : State} (hswf : Memory.wf unlistedByte s.buf)
    (huwf : Memory.wf unlistedByte u.buf) (hagree : AgreeOnExtent s u i) (hw : w ≤ len)
    (hpayload : ∀ a, a < len - w → u.bufByte a = s.bufByte a) {a : Nat} (ha : a < len) :
    (ending i u).bufByte a = (ending i s).bufByte a := by
  rw [hi.ending_bufByte, hi.ending_bufByte, storedFooter_congr hagree]
  refine State.setBytes_bufByte_congr hswf huwf fun houtside => hpayload a ?_
  rw [hi.length_storedFooter] at houtside
  omega

end

theorem State.issue_sameRoms (s : State) (c : Command) : SameRoms s (s.issue c) := ⟨rfl, rfl, rfl, rfl, rfl⟩

/-- Taking a command is the same update of two states with the same ROMs. -/
theorem issue_accept_sameRoms {s u : State} (h : SameRoms s u) (c : Command) :
    SameRoms (s.issue c).accept (u.issue c).accept :=
  ⟨h.rom8, h.rom9, h.romC1, h.romC2, h.rom32⟩

/-- Two states that agree on the ROMs and the caller's memory: a command is answered the same, and the same bytes are
stored at the same place, whatever the working registers and the response port hold. -/
theorem step_issue_agree {s u : State} (h7 : 7 ≤ s.rom9.length) (hroms : SameRoms s u) (hbytes : SameBytes s u)
    (hbits : SameBits s u) (c : Command) :
    ∃ t v, step (s.issue c) = .next t ∧ step (u.issue c) = .next v ∧ v.response = t.response ∧
      ∃ a l, t.buf = (s.setBytes a l).buf ∧ v.buf = (u.setBytes a l).buf := by
  cases hd : decode c with
  | error e => exact ⟨_, _, step_of_decode_error rfl hd, step_of_decode_error rfl hd, rfl, 0, [], rfl, rfl⟩
  | ok i =>
    have hs : LoopServed (s.issue c).accept i := loopServed_of_wellFormed (wellFormed_of_decode_eq_ok hd) h7
    obtain ⟨t, v, ht, hv, hresponse, a, l, htbuf, hvbuf⟩ := exec_agree (s := (s.issue c).accept)
      (u := (u.issue c).accept) (agreeOnExtent_of_same (issue_accept_sameRoms hroms c) hbytes hbits i) hs
    refine ⟨t, v, (step_of_decode_ok rfl hd).trans ht, (step_of_decode_ok rfl hd).trans hv, hresponse, a, l, ?_, ?_⟩
    · exact htbuf.trans (State.setBytes_buf_congr (s := s) (u := (s.issue c).accept) rfl a l)
    · exact hvbuf.trans (State.setBytes_buf_congr (s := u) (u := (u.issue c).accept) rfl a l)

end Sys2Proof.Machine

namespace Sys2Proof.Proofs

open Sys2Proof.Machine Sys2Proof.Safety

/-- Settles O28: both states agree on every extent, so the responses are the same and the same bytes are stored
(`step_issue_agree`), which in canonical form gives the same buffer; a step keeps the ROMs (`step_frame`). -/
theorem responseDependsOnRomsCommandAndBuffers : Obligations.ResponseDependsOnRomsCommandAndBuffers := by
  intro s u c hs hu hroms hbytes hbits
  obtain ⟨t, v, ht, hv, hresponse, a, l, htbuf, hvbuf⟩ := step_issue_agree hs.rom9_deep hroms hbytes hbits c
  obtain ⟨htroms, -, -⟩ := step_frame ht
  obtain ⟨hvroms, -, -⟩ := step_frame hv
  refine ⟨t, v, ht, hv, hresponse, fun x => ?_, (s.issue_sameRoms c).trans htroms, (u.issue_sameRoms c).trans hvroms⟩
  rw [bufByte_of_buf_eq htbuf, bufByte_of_buf_eq hvbuf]
  exact State.setBytes_bufByte_congr hs.buf_wf hu.buf_wf fun _ => hbytes x

/-- Settles O45: a reset keeps the ROMs and the caller's memory, so the command is answered the same and stores the same
bytes (`step_issue_agree`) in the same buffer. -/
theorem resetCannotBeToldApart : Obligations.ResetCannotBeToldApart := by
  intro s c h7
  obtain ⟨t, u, ht, hu, hresponse, a, l, htbuf, hubuf⟩ :=
    step_issue_agree h7 s.afterReset_sameRoms s.afterReset_bufByte s.afterReset_bitAt c
  obtain ⟨-, htbits, -⟩ := step_frame ht
  obtain ⟨-, hubits, -⟩ := step_frame hu
  refine ⟨t, u, ht, hu, hresponse, ?_, hubits.trans htbits.symm⟩
  rw [htbuf, hubuf, State.setBytes_buf_congr s.afterReset_buf]

/-- Settles O29: the premises are the agreement on each operation's extent, and the response depends on nothing else
(`sameAnswer_of_agree`). -/
theorem computeAndVerifyReadOnlyTheirExtent : Obligations.ComputeAndVerifyReadOnlyTheirExtent := by
  intro s u d n hn h7
  refine ⟨fun hbits => ⟨?_, fun e => ?_⟩,
    fun hbytes => ⟨fun hrom => ?_, fun hrom => ?_, fun hrom => ?_, fun hrom => ?_⟩, fun hbits => ⟨fun hrom => ?_, ?_⟩⟩
  · exact sameAnswer_of_agree (i := .ck5Compute d) trivial hbits
  · exact sameAnswer_of_agree (i := .ck5Verify d e) trivial hbits
  · exact sameAnswer_of_agree (i := .crc8Compute d n) hn ⟨hrom, hbytes⟩
  · exact sameAnswer_of_agree (i := .ccitt1Verify d n) hn ⟨hrom, hbytes⟩
  · exact sameAnswer_of_agree (i := .ccitt2Verify d n) hn ⟨hrom, hbytes⟩
  · exact sameAnswer_of_agree (i := .crc32Verify d n) hn ⟨hrom, hbytes⟩
  · exact sameAnswer_of_agree (i := .crc9Compute d n) ⟨hn, h7⟩ ⟨hrom, fun i hi _ => hbits i hi⟩
  · exact sameAnswer_of_agree (i := .ccittsCompute d n) hn hbits

/-- Settles O37: the extent of CRC9 leaves out the skip window. -/
theorem crc9IgnoresWindowBits : Obligations.Crc9IgnoresWindowBits := fun buf bitLen _ _ hwf h7 hrom hbits =>
  sameAnswer_of_agree (i := .crc9Compute buf bitLen) ⟨len_lt_of_wellFormed hwf, h7⟩ ⟨hrom, hbits⟩

/-- Settles O30: an Embed stores a footer computed from its payload over whatever stood there
(`StoresFooter.ending_bufByte_congr`). -/
theorem embedReadsOnlyPayload : Obligations.EmbedReadsOnlyPayload := by
  intro s u buf n hn hu hl hswf huwf
  have hembed {i : Instr} {w : Nat} (hi : StoresFooter i buf n w) (hw : w ≤ n) (hagree : AgreeOnExtent s u i)
      (hpayload : ∀ a, a < n - w → u.bufByte a = s.bufByte a) :
      ∃ s' u', exec i s = .next s' ∧ exec i u = .next u' ∧ ∀ a, a < n → u'.bufByte a = s'.bufByte a :=
    ⟨_, _, hi.exec_eq hu hw hl hn s, hi.exec_eq hu hw hl hn u, fun _ =>
      hi.ending_bufByte_congr hswf huwf hagree hw hpayload⟩
  refine ⟨fun h2 hpayload => ⟨fun hrom => ?_, fun hrom => ?_⟩, fun h4 hpayload hrom => ?_⟩
  · exact hembed (.inl ⟨rfl, rfl⟩) h2 ⟨hrom, hpayload⟩ hpayload
  · exact hembed (.inr (.inl ⟨rfl, rfl⟩)) h2 ⟨hrom, hpayload⟩ hpayload
  · exact hembed (.inr (.inr ⟨rfl, rfl⟩)) h4 ⟨hrom, hpayload⟩ hpayload

end Sys2Proof.Proofs

end

section
/-! # Round trips: an Embed's footer is the one its Verify looks for -/

namespace Sys2Proof.Machine

open Sys2Proof.Safety

/-- A footer just stored is the one found at its place. -/
theorem footerFound_setBytes {s : State} (hs : Memory.wf unlistedByte s.buf) {len w : Nat} {l : List Byte}
    (hl : l.length = w) : footerFound (s.setBytes (len - w) l) len w = l := by
  subst hl
  refine List.ext_getElem (by simp [footerFound]) fun k _ hk => ?_
  simp [footerFound, State.setBytes_bufByte_add hs (len - l.length) l hk]

/-- A footer of one byte repeated, stored from address 0 on. -/
theorem setBytes_replicate_bufByte {s : State} (hs : Memory.wf unlistedByte s.buf) {w a : Nat} (v : Byte)
    (ha : a < w) : (s.setBytes 0 (List.replicate w v)).bufByte a = v := by
  have hread := State.setBytes_bufByte_add hs 0 (List.replicate w v) (k := a) (by simpa using ha)
  simpa using hread

/-! The footers of an empty payload, for any ROM contents: the complemented initial values. -/

theorem ccitt1FooterOf_empty (s : State) : ccitt1FooterOf s 2 = List.replicate 2 0x00 := by
  change ccitt1Footer (~~~ 0xFFFF) = _
  decide

theorem ccitt2FooterOf_empty (s : State) : ccitt2FooterOf s 2 = List.replicate 2 0xFF := by
  change ccitt2Footer (~~~ 0x0000) = _
  decide

theorem crc32FooterOf_empty (s : State) : crc32FooterOf s 4 = List.replicate 4 0xFF := by
  change crc32Footer (~~~ 0) = _
  decide

section
variable {i : Instr} {buf : Descriptor} {len w : Nat} (hi : StoresFooter i buf len w)
include hi

theorem StoresFooter.ending_footerFound {s : State} (hs : Memory.wf unlistedByte s.buf) :
    footerFound (ending i s) len w = storedFooter i s := by
  have hbytes : footerFound (ending i s) len w = footerFound (s.setBytes (len - w) (storedFooter i s)) len w :=
    List.map_congr_left fun a _ => hi.ending_bufByte s a
  rw [hbytes, footerFound_setBytes hs (hi.length_storedFooter s)]

/-- An Embed writes no ROM and no byte of its payload. -/
theorem StoresFooter.ending_payload (s : State) :
    SameRoms s (ending i s) ∧ ∀ a, a < len - w → (ending i s).bufByte a = s.bufByte a := by
  refine ⟨?_, fun a ha => (hi.ending_bufByte s a).trans (s.setBytes_bufByte_other (.inl ha))⟩
  rw [ending, hi.not_usesSum]
  exact ((s.setBytes_keeps _ _).trans (State.finishAcc_keeps _ _)).roms

theorem StoresFooter.ending_bufByte_of_replicate {s : State} (hs : Memory.wf unlistedByte s.buf) {v : Byte}
    (hempty : len - w = 0) (hfooter : storedFooter i s = List.replicate w v) {a : Nat} (ha : a < w) :
    (ending i s).bufByte a = v := by
  rw [hi.ending_bufByte, hempty, hfooter, setBytes_replicate_bufByte hs v ha]

end

section
variable {buf : Descriptor} {len : Nat}

theorem storesFooter_ccitt1Embed : StoresFooter (.ccitt1Embed buf len) buf len 2 := .inl ⟨rfl, rfl⟩

theorem storesFooter_ccitt2Embed : StoresFooter (.ccitt2Embed buf len) buf len 2 := .inr (.inl ⟨rfl, rfl⟩)

theorem storesFooter_crc32Embed : StoresFooter (.crc32Embed buf len) buf len 4 := .inr (.inr ⟨rfl, rfl⟩)

variable (hu : Usable buf) (hl : len ≤ buf.size) (hn : len < 2 ^ 32)
include hu hl hn

theorem exec_ccitt1Verify_ok (h2 : 2 ≤ len) (s : State) :
    exec (.ccitt1Verify buf len) s = .next (ending (.ccitt1Verify buf len) s) :=
  exec_admitted hn ⟨hu, Nat.not_lt.2 h2, Nat.not_lt.2 hl⟩

theorem exec_ccitt2Verify_ok (h2 : 2 ≤ len) (s : State) :
    exec (.ccitt2Verify buf len) s = .next (ending (.ccitt2Verify buf len) s) :=
  exec_admitted hn ⟨hu, Nat.not_lt.2 h2, Nat.not_lt.2 hl⟩

theorem exec_crc32Verify_ok (h4 : 4 ≤ len) (s : State) :
    exec (.crc32Verify buf len) s = .next (ending (.crc32Verify buf len) s) :=
  exec_admitted hn ⟨hu, Nat.not_lt.2 h4, Nat.not_lt.2 hl⟩

end

end Sys2Proof.Machine

namespace Sys2Proof.Proofs

open Sys2Proof.Machine Sys2Proof.Safety

/-- Settles O31: Verify finds the footer Embed stored, and computes the same one from the payload and the ROM, which Embed
left alone; on an empty payload variant 2 computes 0xFF bytes where variant 1 has stored 0x00. -/
theorem ccittRoundTrip : Obligations.CcittRoundTrip := by
  intro buf len s hs hu hn hw hl
  have h1 := storesFooter_ccitt1Embed (buf := buf) (len := len)
  have h2 := storesFooter_ccitt2Embed (buf := buf) (len := len)
  have hembed1 := h1.exec_eq hu hw hl hn s
  have hembed2 := h2.exec_eq hu hw hl hn s
  refine ⟨⟨_, _, hembed1, exec_ccitt1Verify_ok hu hl hn hw _, ?_⟩,
    ⟨_, _, hembed2, exec_ccitt2Verify_ok hu hl hn hw _, ?_⟩,
    fun hempty => ⟨_, _, hembed1, exec_ccitt2Verify_ok hu hl hn hw _, ?_⟩⟩
  · obtain ⟨hroms, hpayload⟩ := h1.ending_payload s
    have hfooter := ccitt1FooterOf_congr hroms.romC1 hpayload
    rw [ending_response, answer, decide_eq_true ((h1.ending_footerFound hs).trans hfooter.symm)]
  · obtain ⟨hroms, hpayload⟩ := h2.ending_payload s
    have hfooter := ccitt2FooterOf_congr hroms.romC2 hpayload
    rw [ending_response, answer, decide_eq_true ((h2.ending_footerFound hs).trans hfooter.symm)]
  · subst hempty
    rw [ending_response, answer, h1.ending_footerFound hs, storedFooter, ccitt1FooterOf_empty, ccitt2FooterOf_empty]
    rfl

/-- Settles O32: as for the CCITT variants, with four bytes. -/
theorem crc32RoundTrip : Obligations.Crc32RoundTrip := by
  intro buf len s hs hu hn h4 hl
  have hi := storesFooter_crc32Embed (buf := buf) (len := len)
  obtain ⟨hroms, hpayload⟩ := hi.ending_payload s
  have hfooter := crc32FooterOf_congr hroms.rom32 hpayload
  refine ⟨_, _, hi.exec_eq hu h4 hl hn s, exec_crc32Verify_ok hu hl hn h4 _, ?_, fun hempty a ha => ?_⟩
  · rw [ending_response, answer, decide_eq_true ((hi.ending_footerFound hs).trans hfooter.symm)]
  · subst hempty
    exact hi.ending_bufByte_of_replicate hs rfl (crc32FooterOf_empty s) ha

/-- Settles O33: with no payload the footer is the complemented initial value, stored from address 0 on. -/
theorem emptyPayloadFooters : Obligations.EmptyPayloadFooters := by
  intro buf s hs hpresent
  have husable {w : Nat} (hw : 0 < w) (hl : w ≤ buf.size) : Usable buf := ⟨hpresent, hw.trans_le hl⟩
  refine ⟨fun h2 => ⟨?_, ?_⟩, fun h4 => ?_⟩
  · have hi := storesFooter_ccitt1Embed (buf := buf) (len := 2)
    have hbyte {a : Nat} := hi.ending_bufByte_of_replicate hs rfl (ccitt1FooterOf_empty s) (a := a)
    exact ⟨_, hi.exec_eq (husable (by decide) h2) le_rfl h2 (by decide) s, hbyte (by decide), hbyte (by decide)⟩
  · have hi := storesFooter_ccitt2Embed (buf := buf) (len := 2)
    have hbyte {a : Nat} := hi.ending_bufByte_of_replicate hs rfl (ccitt2FooterOf_empty s) (a := a)
    exact ⟨_, hi.exec_eq (husable (by decide) h2) le_rfl h2 (by decide) s, hbyte (by decide), hbyte (by decide)⟩
  · have hi := storesFooter_crc32Embed (buf := buf) (len := 4)
    exact ⟨_, hi.exec_eq (husable (by decide) h4) le_rfl h4 (by decide) s, fun a =>
      hi.ending_bufByte_of_replicate hs rfl (crc32FooterOf_empty s)⟩

end Sys2Proof.Proofs

end

section
/-! # What a changed bit does: the bit-serial generator and the 5-bit checksum -/

namespace Sys2Proof.Machine

open Sys2Proof.Safety

/-! The bit-serial step loses nothing: bit 0 of its result tells whether the polynomial was exclusive-ored in, which
with the input bit gives the accumulator's bit 15, and the shift keeps the other fifteen (R100, R102). -/

theorem bitSerialShift_getLsbD_zero (a : Half) (b : Bool) :
    (bitSerialShift a b).getLsbD 0 = (b != a.getLsbD 15) := by
  unfold bitSerialShift bitSerialPoly
  cases b != a.getLsbD 15 <;> simp

theorem bitSerialShift_left_injective (b : Bool) : Function.Injective fun a : Half => bitSerialShift a b := by
  intro a a' h
  have hmsb : a.getLsbD 15 = a'.getLsbD 15 := by
    have hzero := congrArg (BitVec.getLsbD · 0) h
    simpa only [bitSerialShift_getLsbD_zero, Bool.bne_right_inj] using hzero
  have hshift : a <<< 1 = a' <<< 1 := by
    simp only [bitSerialShift, hmsb] at h
    split at h
    · exact (BitVec.xor_left_inj _).1 h
    · exact h
  refine BitVec.eq_of_getLsbD_eq fun i hi => ?_
  by_cases h15 : i = 15
  · rw [h15, hmsb]
  · have hbit := congrArg (BitVec.getLsbD · (i + 1)) hshift
    have hlt : i + 1 < 16 := by omega
    simpa [BitVec.getLsbD_shiftLeft, hlt, hi] using hbit

theorem bitSerialShift_right_injective (a : Half) : Function.Injective (bitSerialShift a) := by
  intro b b' h
  have hzero := congrArg (BitVec.getLsbD · 0) h
  simpa only [bitSerialShift_getLsbD_zero, Bool.bne_left_inj] using hzero

/-- The generator takes one step per bit (R100). -/
theorem bitSerialOf_bitsOf_succ (s : State) (n : Nat) :
    bitSerialOf (bitsOf s (n + 1)) = bitSerialShift (bitSerialOf (bitsOf s n)) (s.bufBit n) := by
  rw [bitSerialShift_eq, bitsOf_succ, bitSerialOf, List.foldl_append]
  rfl

/-- Messages that agree up to bit `k`, differ there and agree after it have different results: the steps before bit `k`
are the same, step `k` tells the bits apart, and no later step loses the difference. -/
theorem bitSerialOf_ne_of_bit_ne {s u : State} {k n : Nat} (hk : k < n) (hbit : u.bufBit k ≠ s.bufBit k)
    (hrest : ∀ i, i < n → i ≠ k → u.bufBit i = s.bufBit i) :
    bitSerialOf (bitsOf u n) ≠ bitSerialOf (bitsOf s n) := by
  induction n, hk using Nat.le_induction with
  | base =>
    have hbefore : bitsOf u k = bitsOf s k := bitsOf_congr fun i hi => hrest i (Nat.lt_succ_of_lt hi) hi.ne
    rw [bitSerialOf_bitsOf_succ, bitSerialOf_bitsOf_succ, hbefore]
    exact (bitSerialShift_right_injective _).ne hbit
  | succ n hkn ih =>
    have hsame : u.bufBit n = s.bufBit n := hrest n n.lt_succ_self (by omega)
    rw [bitSerialOf_bitsOf_succ, bitSerialOf_bitsOf_succ, hsame]
    exact (bitSerialShift_left_injective _).ne (ih fun i hi => hrest i (Nat.lt_succ_of_lt hi))

/-- A bit count inside the buffer admits `CCITTS.COMPUTE`, which ends with the accumulator. -/
theorem exec_ccittsCompute_ok {buf : Descriptor} {bitLen : Nat} (hu : Usable buf) (hn : bitLen < 2 ^ 32)
    (hl : bitLen ≤ 8 * buf.size) (s : State) :
    exec (.ccittsCompute buf bitLen) s =
      .next (s.finishAcc (respValue ((bitSerialOf (bitsOf s bitLen)).setWidth 32))) :=
  exec_admitted (i := .ccittsCompute buf bitLen) hn ⟨hu, id, Nat.not_lt.2 hl⟩

theorem respValue_injective : Function.Injective respValue := fun _ _ h => congrArg Response.value h

/-! The 5-bit checksum: which byte sums give one response, and how a sum of which one term changes moves. -/

theorem respValue_modularSum_eq_iff {l m : List Byte} :
    some (respValue (BitVec.ofNat 32 (modularSum l))) = some (respValue (BitVec.ofNat 32 (modularSum m))) ↔
      modularSum l = modularSum m := by
  refine ⟨fun h => ?_, fun h => by rw [h]⟩
  have hvalue := congrArg BitVec.toNat (respValue_injective (Option.some.inj h))
  rwa [toNat_ofNat_modularSum, toNat_ofNat_modularSum] at hvalue

/-- Two sums that differ in the term at `k` alone have a common rest. -/
theorem sum_eq_add_common_rest {f g : Nat → Nat} {k n : Nat} (hk : k < n)
    (hrest : ∀ j, j < n → j ≠ k → g j = f j) :
    ∃ rest, ∑ j ∈ Finset.range n, f j = f k + rest ∧ ∑ j ∈ Finset.range n, g j = g k + rest := by
  have hmem : k ∈ Finset.range n := Finset.mem_range.2 hk
  have hsame : ∑ j ∈ (Finset.range n).erase k, g j = ∑ j ∈ (Finset.range n).erase k, f j :=
    Finset.sum_congr rfl fun j hj => hrest j (Finset.mem_range.1 (Finset.mem_of_mem_erase hj)) (Finset.ne_of_mem_erase hj)
  exact ⟨_, (Finset.add_sum_erase _ f hmem).symm, hsame ▸ (Finset.add_sum_erase _ g hmem).symm⟩

theorem groupsOf_sum_eq (s : State) :
    ((groupsOf s).map BitVec.toNat).sum = ∑ g ∈ Finset.range 9, (s.packedAt (8 * g)).toNat := by
  rw [groupsOf, List.map_map]
  rfl

/-- The value of a packed byte: the first bit weighs 128 (40_bit_packer_and_roms.md R61). -/
theorem packByte_toNat (f : Nat → Bool) :
    (packByte f).toNat = ∑ j ∈ Finset.range 8, (f j).toNat * 2 ^ (7 - j) := by
  simp only [packByte, BitVec.append_ofBool, BitVec.toNat_concat, BitVec.toNat_ofBool, Finset.sum_range_succ,
    Finset.sum_range_zero]
  omega

/-- Changing one byte changes the checksum exactly when 31 does not divide the difference. -/
theorem modularSum_eq_iff_dvd {s u : State} {k : Nat} (hk : k < 9)
    (hrest : ∀ j, j < 9 → j ≠ k → u.packedAt (8 * j) = s.packedAt (8 * j)) :
    modularSum (groupsOf u) = modularSum (groupsOf s) ↔
      (31 : Int) ∣ ((u.packedAt (8 * k)).toNat : Int) - ((s.packedAt (8 * k)).toNat : Int) := by
  obtain ⟨rest, hs, hu⟩ := sum_eq_add_common_rest (f := fun g => (s.packedAt (8 * g)).toNat)
    (g := fun g => (u.packedAt (8 * g)).toNat) hk fun j hj hjk => congrArg BitVec.toNat (hrest j hj hjk)
  rw [modularSum, modularSum, groupsOf_sum_eq, groupsOf_sum_eq, hs, hu]
  omega

/-- Changing one bit of a group moves its byte by a power of two, which 31 does not divide. -/
theorem not_dvd_of_bit_ne {s u : State} {k j : Nat} (hj : j < 8) (hbit : u.bitAt (k + j) ≠ s.bitAt (k + j))
    (hrest : ∀ i, i < 8 → i ≠ j → u.bitAt (k + i) = s.bitAt (k + i)) :
    ¬ (31 : Int) ∣ ((u.packedAt k).toNat : Int) - ((s.packedAt k).toNat : Int) := by
  obtain ⟨rest, hs, hu⟩ := sum_eq_add_common_rest (f := fun i => (s.bitAt (k + i)).toNat * 2 ^ (7 - i))
    (g := fun i => (u.bitAt (k + i)).toNat * 2 ^ (7 - i)) hj fun i hi hij => by simp only [hrest i hi hij]
  rw [State.packedAt, State.packedAt, packByte_toNat, packByte_toNat, hs, hu]
  have hpow : ¬ (31 : Int) ∣ 2 ^ (7 - j) := by interval_cases j <;> decide
  cases hsbit : s.bitAt (k + j) with
  | false =>
    have hubit : u.bitAt (k + j) = true := by simpa [hsbit] using hbit
    simpa [hsbit, hubit] using hpow
  | true =>
    have hubit : u.bitAt (k + j) = false := by simpa [hsbit] using hbit
    simpa [hsbit, hubit, Int.dvd_neg] using hpow

/-- Every change of a single bit among the 72 changes the checksum. -/
theorem modularSum_ne_of_bit_ne {s u : State} {k : Nat} (hk : k < 72) (hbit : u.bitAt k ≠ s.bitAt k)
    (hrest : ∀ j, j < 72 → j ≠ k → u.bitAt j = s.bitAt j) :
    modularSum (groupsOf u) ≠ modularSum (groupsOf s) := by
  have hplace : 8 * (k / 8) + k % 8 = k := Nat.div_add_mod k 8
  have hother (g : Nat) (hg : g < 9) (hgk : g ≠ k / 8) : u.packedAt (8 * g) = s.packedAt (8 * g) :=
    packedAt_congr fun j hj => hrest _ (by omega) (by omega)
  rw [Ne, modularSum_eq_iff_dvd (by omega) hother]
  refine not_dvd_of_bit_ne (Nat.mod_lt k (by decide)) ?_ fun i hi hik => hrest _ (by omega) (by omega)
  rwa [hplace]

end Sys2Proof.Machine

namespace Sys2Proof.Proofs

open Sys2Proof.Machine Sys2Proof.Safety

/-- Settles O34: the formula is the definition with the mask of sixteen ones, an injection of a finite type into itself is a
bijection, and a single changed bit is told apart by its own step and kept apart by the later ones
(`bitSerialOf_ne_of_bit_ne`). -/
theorem bitSerialDetectsSingleBit : Obligations.BitSerialDetectsSingleBit := by
  refine ⟨fun a b => ?_, fun b => Finite.injective_iff_bijective.1 (bitSerialShift_left_injective b),
    fun buf bitLen k s u hwf hu hl hk hbit hrest => ?_⟩
  · have hmask : (a <<< 1) &&& (0xFFFF : Half) = a <<< 1 := BitVec.and_allOnes
    rw [hmask, bitSerialShift, bitSerialPoly]
    cases b <;> cases a.getLsbD 15 <;> simp
  · have hn : bitLen < 2 ^ 32 := len_lt_of_wellFormed hwf
    refine ⟨_, _, exec_ccittsCompute_ok hu hn hl s, exec_ccittsCompute_ok hu hn hl u, fun hsame => ?_⟩
    have hwide := respValue_injective (Option.some.inj hsame)
    have hnarrow := congrArg (BitVec.setWidth 16) hwide
    rw [setWidth_roundtrip (by decide), setWidth_roundtrip (by decide)] at hnarrow
    exact bitSerialOf_ne_of_bit_ne hk hbit hrest hnarrow

/-- Settles O35: the responses are equal exactly when the checksums are (`respValue_modularSum_eq_iff`), and the checksums
are remainders of the byte sum. -/
theorem ck5DetectsWhat31DoesNotDivide : Obligations.Ck5DetectsWhat31DoesNotDivide := by
  intro bits s u hu hl
  refine ⟨_, _, exec_ck5Compute_ok hu hl s, exec_ck5Compute_ok hu hl u, ?_⟩
  simp only [State.finishSum_response, Ne, respValue_modularSum_eq_iff]
  refine ⟨fun hsum => congrArg (· % 31) hsum, fun hperm => ?_, fun k hk => modularSum_eq_iff_dvd hk,
    fun k hk => modularSum_ne_of_bit_ne hk⟩
  exact congrArg (· % 31) (hperm.map BitVec.toNat).sum_eq

end Sys2Proof.Proofs

end
